-- ==== Sys2Proof/Word.lean ====
section
/-! DEFINITION. The widths the specification gives to values (00_scope.md R9, R10; 20_memory.md R50). -/
namespace Sys2Proof

/-- A 32-bit word: what the host bus carries, and a command word (20_memory.md R50, 30_encoding.md R80). -/
abbrev Word := BitVec 32

/-- A 64-bit Block or round key, BLOCK_BITS = 64 (00_scope.md R6, R16). -/
abbrev Block := BitVec 64

/-- A key character code or a byte of the hash output (10_state.md R23, 40_key_schedule.md R101). -/
abbrev Byte := BitVec 8

/-- One S-box lane, NIBBLE_BITS = 4 (00_scope.md R6). -/
abbrev Nibble := BitVec 4

/-- A 20-bit byte address of the host register space (20_memory.md R50). -/
abbrev Addr := BitVec 20

/-- A bit string, first bit at the head of the list (00_scope.md R10). -/
abbrev Bits := List Bool

end Sys2Proof
end

