-- ==== Sys2Proof/Config.lean ====
section
/-! DEFINITION. The parameters of the core (00_scope.md R6, R7) and the values the specification leaves free. -/
namespace Sys2Proof

/-- The implementation parameters that a command's result depends on (00_scope.md R6), with the laws of R7 built in:
a permutation is a bijection, and a byte stream per seed is a hash with the prefix law. -/
structure Params where
  /-- `SBOX`, a bijection on 0..15; its inverse is `ISBOX` (41_round_engine.md R120). -/
  sbox : Equiv.Perm Nibble
  /-- `PERM`, a bijection on 0..63: bit i moves to bit `perm i` (41_round_engine.md R122). -/
  perm : Equiv.Perm (Fin 64)
  /-- Byte k of the output stream of `XOF` for a seed (40_key_schedule.md R102). -/
  xofByte : List Byte → Nat → Byte
  /-- `MAX_BITS` is 64 times one more than this: a multiple of 64 from 64 to 2^21. -/
  bitsStep : Fin 32768
  /-- `MAX_KEY` is one more than this: 1 to 1024. -/
  keyStep : Fin 1024
  /-- `MAX_ROUNDS` is twelve more than this: 12 to 255. -/
  roundsStep : Fin 244

/-- `MAX_BITS`, the capacity of S (00_scope.md R6). -/
def Params.maxBits (P : Params) : Nat := 64 * (P.bitsStep.val + 1)

/-- `MAX_KEY`, the capacity of K1, K2 and SH (00_scope.md R6). -/
def Params.maxKey (P : Params) : Nat := P.keyStep.val + 1

/-- `MAX_ROUNDS`, the largest round count KEYEXP accepts (00_scope.md R6). -/
def Params.maxRounds (P : Params) : Nat := P.roundsStep.val + 12

/-- `XOF(m, n)`: the first n bytes of the output stream of m (00_scope.md R6, R7). -/
def Params.xof (P : Params) (m : List Byte) (n : Nat) : List Byte :=
  (List.range n).map (P.xofByte m)

/-- `STREAM_ROUNDS` = 12 (00_scope.md R6). -/
def Config.streamRounds : Nat := 12

/-- The core's S-box; OPEN (00_scope.md R6; 92_eei_decisions.md D13). Log 4. -/
opaque Config.sbox : Equiv.Perm Nibble

/-- The core's bit permutation; OPEN (00_scope.md R6; 92_eei_decisions.md D13). Log 4. -/
opaque Config.perm : Equiv.Perm (Fin 64)

/-- The core's hash, as the output stream of each seed; OPEN (00_scope.md R6; 92_eei_decisions.md D12). Log 4. -/
opaque Config.xofByte : List Byte → Nat → Byte

/-- Fixes the core's `MAX_BITS`; OPEN (00_scope.md R6; 92_eei_decisions.md D24). Log 4. -/
opaque Config.bitsStep : Fin 32768

/-- Fixes the core's `MAX_KEY`; OPEN (00_scope.md R6; 92_eei_decisions.md D24). Log 4. -/
opaque Config.keyStep : Fin 1024

/-- Fixes the core's `MAX_ROUNDS`; OPEN (00_scope.md R6; 92_eei_decisions.md D24). Log 4. -/
opaque Config.roundsStep : Fin 244

/-- The parameters of the core that `step` runs. -/
def Config.params : Params where
  sbox := Config.sbox
  perm := Config.perm
  xofByte := Config.xofByte
  bitsStep := Config.bitsStep
  keyStep := Config.keyStep
  roundsStep := Config.roundsStep

/-- `CORE_LATENCY`: the draw of this number, counted in host steps that still see BUSY = 1
(70_reset_and_hazards.md R286). Log 3. -/
opaque Config.coreLatency : Nat → Nat

/-- Free value: what a host read of this draw answers for cells at or beyond a length (20_memory.md R67). Log 7. -/
opaque Config.freeRead : Nat → Word

/-- Free value: cell k of S at or beyond the new length, after the commit of this draw (10_state.md R34). Log 6. -/
opaque Config.freeS : Nat → Nat → Bool

/-- Free value: RK[j][63:32] at or beyond the new NRK, after the commit of this draw (10_state.md R34). Log 6. -/
opaque Config.freeRkHi : Nat → Nat → Word

/-- Free value: RK[j][31:0] at or beyond the new NRK, after the commit of this draw (10_state.md R34). Log 6. -/
opaque Config.freeRkLo : Nat → Nat → Word

/-- Free value: cell j of SH at or beyond the new SH_LEN, after the commit of this draw (10_state.md R34). Log 6. -/
opaque Config.freeSh : Nat → Nat → Word

end Sys2Proof
end

