-- ==== Sys2Proof/Syntax.lean ====
section
/-! DEFINITION. The commands: one constructor per row of spec/opcode_table.json (30_encoding.md R83). -/
namespace Sys2Proof

/-- The 15 commands (30_encoding.md R83). An immediate is IMM8, an unsigned number 0..255 (R82). -/
inductive Instr where
  /-- NOP (45_control.md R220). -/
  | nop
  /-- XORK r: X becomes X xor RK[r] (41_round_engine.md R125). -/
  | xork (r : Byte)
  /-- SUB: the forward S-box layer (41_round_engine.md R126). -/
  | sub
  /-- ISUB: the inverse S-box layer (41_round_engine.md R127). -/
  | isub
  /-- PERM: the forward permutation network (41_round_engine.md R128). -/
  | perm
  /-- IPERM: the inverse permutation network (41_round_engine.md R129). -/
  | iperm
  /-- ENCB: encrypt one block (41_round_engine.md R130). -/
  | encb
  /-- DECB: decrypt one block (41_round_engine.md R131). -/
  | decb
  /-- KEYEXP n: derive n+1 round keys (40_key_schedule.md R103). -/
  | keyexp (n : Byte)
  /-- ENCS: encrypt the stream (42_stream.md R163). -/
  | encs
  /-- DECS: decrypt the stream (42_stream.md R164). -/
  | decs
  /-- PAD1: insert the keyed zero runs (43_pad.md R182). -/
  | pad1
  /-- UNPAD1: remove the keyed zero runs (43_pad.md R183). -/
  | unpad1
  /-- ROT: apply the keyed rotations (44_rotate.md R203). -/
  | rot
  /-- UNROT: undo the recorded rotations (44_rotate.md R204). -/
  | unrot
  deriving DecidableEq, Repr

/-- OPC of each command (30_encoding.md R83). -/
def Instr.opcode : Instr → Byte
  | .nop => 0x00
  | .xork _ => 0x01
  | .sub => 0x02
  | .isub => 0x03
  | .perm => 0x04
  | .iperm => 0x05
  | .encb => 0x06
  | .decb => 0x07
  | .keyexp _ => 0x08
  | .encs => 0x10
  | .decs => 0x11
  | .pad1 => 0x20
  | .unpad1 => 0x21
  | .rot => 0x22
  | .unrot => 0x23

/-- IMM8 of each command: 0 for every command but XORK and KEYEXP (30_encoding.md R80). -/
def Instr.imm : Instr → Byte
  | .xork r => r
  | .keyexp n => n
  | .nop => 0
  | .sub => 0
  | .isub => 0
  | .perm => 0
  | .iperm => 0
  | .encb => 0
  | .decb => 0
  | .encs => 0
  | .decs => 0
  | .pad1 => 0
  | .unpad1 => 0
  | .rot => 0
  | .unrot => 0

end Sys2Proof
end

