-- ==== Sys2Proof/WellFormed.lean ====
section
/-! DEFINITION. Which commands are legal: the one operand bound the encoding has (30_encoding.md R84, R85). -/
namespace Sys2Proof

/-- A command is well formed when the decoder can answer it: KEYEXP needs n <= MAX_ROUNDS (30_encoding.md R84);
an immediate is 8 bits by its type, and every other field is fixed. -/
def Instr.wf (P : Params) : Instr → Bool
  | .keyexp n => decide (n.toNat ≤ P.maxRounds)
  | .nop => true
  | .xork _ => true
  | .sub => true
  | .isub => true
  | .perm => true
  | .iperm => true
  | .encb => true
  | .decb => true
  | .encs => true
  | .decs => true
  | .pad1 => true
  | .unpad1 => true
  | .rot => true
  | .unrot => true

end Sys2Proof
end

