-- ==== Sys2Proof/Decode.lean ====
section
/-! DEFINITION. Decoding a command word, total on all 2^32 words, and encoding one (30_encoding.md R80 to R87). -/
namespace Sys2Proof

/-- OPC = w[31:24] (30_encoding.md R81). -/
def opcField (w : Word) : Byte := w.extractLsb' 24 8

/-- IMM8 = w[23:16] (30_encoding.md R81). -/
def immField (w : Word) : Byte := w.extractLsb' 16 8

/-- RSVD = w[15:0] (30_encoding.md R81). -/
def rsvdField (w : Word) : BitVec 16 := w.extractLsb' 0 16

/-- Why a command word is illegal: the four cases of 30_encoding.md R85. All complete as IllegalCommand. -/
inductive Illegal where
  /-- OPC is none of the 15 opcodes (R85, item 1). -/
  | opcode (opc : Byte)
  /-- RSVD is not 0 (R85, item 2). -/
  | reserved (rsvd : BitVec 16)
  /-- IMM8 is not 0 on a command that takes no immediate (R85, item 3). -/
  | immediate (imm : Byte)
  /-- KEYEXP with more rounds than MAX_ROUNDS (R85, item 4). -/
  | rounds (n : Byte)
  deriving DecidableEq, Repr

/-- A command without an immediate: IMM8 must be 0 (30_encoding.md R85, item 3). -/
def noImm (w : Word) (i : Instr) : Except Illegal Instr :=
  if immField w = 0 then .ok i else .error (.immediate (immField w))

/-- The command selected by OPC, with its immediate checked (30_encoding.md R83, R85). -/
def decodeOpc (P : Params) (w : Word) : Except Illegal Instr :=
  match opcField w with
  | 0x00#8 => noImm w .nop
  | 0x01#8 => .ok (.xork (immField w))
  | 0x02#8 => noImm w .sub
  | 0x03#8 => noImm w .isub
  | 0x04#8 => noImm w .perm
  | 0x05#8 => noImm w .iperm
  | 0x06#8 => noImm w .encb
  | 0x07#8 => noImm w .decb
  | 0x08#8 =>
    if (immField w).toNat ≤ P.maxRounds then .ok (.keyexp (immField w)) else .error (.rounds (immField w))
  | 0x10#8 => noImm w .encs
  | 0x11#8 => noImm w .decs
  | 0x20#8 => noImm w .pad1
  | 0x21#8 => noImm w .unpad1
  | 0x22#8 => noImm w .rot
  | 0x23#8 => noImm w .unrot
  | opc => .error (.opcode opc)

/-- Decoding a command word (30_encoding.md R84): one of the 15 commands, or the reason it is illegal (R85). -/
def decode (P : Params) (w : Word) : Except Illegal Instr :=
  if rsvdField w = 0 then decodeOpc P w else .error (.reserved (rsvdField w))

/-- The word of a command: OPC in 31:24, IMM8 in 23:16, RSVD zero (30_encoding.md R80). -/
def encode (i : Instr) : Word := i.opcode ++ i.imm ++ (0 : BitVec 16)

/-- The command word whose low `nbits` bits are those of `w`, the bits above being 0: a command is always one 32-bit
word, which the host writes whole to CMD (30_encoding.md R80, 20_memory.md R54). -/
def tableWord (nbits w : Nat) : Word := BitVec.ofNat 32 (w % 2 ^ nbits)

/-- The command the decoder reads from a word given as spec/opcode_table.json numbers its bits; none where the word is
illegal, or is longer than the one word every command has (30_encoding.md R80). -/
def decodeTableWord (nbits w : Nat) : Option Instr :=
  if w % 2 ^ nbits < 2 ^ 32 then
    match decode Config.params (tableWord nbits w) with
    | .ok i => some i
    | .error _ => none
  else none

end Sys2Proof
end

