-- ==== Sys2Proof/Machine/State.lean ====
section
/-! DEFINITION. The state of the core as plain data (10_state.md), with the host's own place in its program, and the
reasons a step can stop (60_exceptions.md R263). -/
namespace Sys2Proof.Machine

/-- A buffer of cells: the cells marked written, each with its index, at strictly rising indices. A cell that is not
listed is marked unwritten (10_state.md R33). A buffer of bytes is a list of `Host.Cell`. Log 13. -/
abbrev Buffer (α : Type) := List (Nat × α)

/-- The five buffers of the core (10_state.md R21, R23, R24, R25, R27). -/
structure Memory where
  /-- RK[j][63:32] where that half has been written (20_memory.md R63). -/
  rkHi : Buffer Word
  /-- RK[j][31:0] where that half has been written (20_memory.md R63). -/
  rkLo : Buffer Word
  /-- K1, the character codes of the first key (10_state.md R23). -/
  k1 : Buffer Byte
  /-- K2, the character codes of the second key (10_state.md R24). -/
  k2 : Buffer Byte
  /-- S, the working bit string (10_state.md R25). -/
  s : Buffer Bool
  /-- SH, the recorded shifts (10_state.md R27). -/
  sh : Buffer Word
  deriving DecidableEq, Repr

/-- The indices of a buffer rise strictly. -/
abbrev Rising {α : Type} (b : Buffer α) : Prop := (b.map Prod.fst).Pairwise (· < ·)

/-- The canonical form of memory: every buffer lists its written cells once each, at strictly rising indices. An
unlisted cell has no value at all, so no listed value is redundant. -/
abbrev Memory.wf (m : Memory) : Prop :=
  Rising m.rkHi ∧ Rising m.rkLo ∧ Rising m.k1 ∧ Rising m.k2 ∧ Rising m.s ∧ Rising m.sh

/-- The fields of STATUS (10_state.md R28). The reserved bits hold nothing and read as 0. Log 14. -/
structure Status where
  /-- Bit 0, BUSY. -/
  busy : Bool
  /-- Bit 1, DONE. -/
  done : Bool
  /-- Bits 7:4, ERR. -/
  err : BitVec 4
  /-- Bits 15:8, LAST_OPC. -/
  lastOpc : Byte
  deriving DecidableEq, Repr

/-- One action of the host (30_encoding.md R87, 70_reset_and_hazards.md R280). An access carries its width in bytes,
since a width other than 4 gets a bus error (20_memory.md R51). Log 1. -/
inductive HostAction where
  /-- `MemWrite(addr, bytes, v)`. -/
  | write (addr : Addr) (bytes : Nat) (v : Word)
  /-- `MemRead(addr, bytes)`. -/
  | read (addr : Addr) (bytes : Nat)
  /-- `POLL`: read STATUS until BUSY = 0. -/
  | poll
  /-- The reset input RST is asserted (70_reset_and_hazards.md R280). -/
  | rst
  deriving DecidableEq, Repr

/-- One cell of a buffer, as a fault names it (60_exceptions.md R263). -/
inductive CellId where
  | rk (j : Nat)
  | k1 (j : Nat)
  | k2 (j : Nat)
  | s (k : Nat)
  | sh (j : Nat)
  deriving DecidableEq, Repr

/-- The six error kinds a command can report (60_exceptions.md R251). -/
inductive ErrorKind where
  | invalidKeyFormat
  | formatError
  | lengthMismatch
  | illegalCommand
  | capacityOverflow
  | keyIndexError
  deriving DecidableEq, Repr

/-- Why the pseudocode of a command ends without a commit (00_scope.md R12, 45_control.md R222). -/
inductive Stop where
  /-- `raise`: the command completes with an error code (60_exceptions.md R252). -/
  | raise (e : ErrorKind)
  /-- The command read an unwritten cell inside a length (20_memory.md R68). -/
  | unwritten (c : CellId)
  deriving DecidableEq, Repr

/-- What ends the run: the two model faults of 60_exceptions.md R263. -/
inductive Fault where
  /-- UNWRITTEN_READ, raised by a host read or by a command that reads a cell below its length that nothing has written
  (20_memory.md R68). Safe: the hardware returns some value and goes on. -/
  | unwrittenRead (c : CellId)
  /-- PROTOCOL, raised by a host access while BUSY = 1 other than a read of STATUS (70_reset_and_hazards.md R284, R285).
  Safe: the hardware's result is unpredictable. -/
  | protocol (addr : Addr)
  deriving DecidableEq, Repr

/-- What has no successor because it is refused. -/
inductive Refusal where
  /-- A command that has no meaning yet. No arm of `exec` raises it. Safe. -/
  | notModelled (mnemonic : String)
  /-- The bus-error response to a misaligned, narrow, wide or unmapped host access, with its address
  (20_memory.md R51, R52). Safe: the access reads and writes nothing. -/
  | busError (addr : Addr)
  deriving DecidableEq, Repr

/-- The state of the core (10_state.md), and after it the model's own fields. The CAP registers are hard-wired to the
parameters and stand in `readReg` (10_state.md R29; log 12). -/
structure State where
  /-- X, the block register (10_state.md R20). -/
  x : Block
  /-- NRK, the round-key count (10_state.md R22). -/
  nrk : Nat
  /-- K1_LEN (10_state.md R23). -/
  k1Len : Nat
  /-- K2_LEN (10_state.md R24). -/
  k2Len : Nat
  /-- S_LEN (10_state.md R25). -/
  sLen : Nat
  /-- SH_LEN (10_state.md R27). -/
  shLen : Nat
  /-- OLEN (10_state.md R26). -/
  olen : Word
  /-- STATUS (10_state.md R28). -/
  status : Status
  /-- PEND, the pending command word (10_state.md R30). -/
  pend : Option Word
  /-- RK, K1, K2, S and SH (10_state.md R21, R23, R24, R25, R27). -/
  mem : Memory
  /-- The model's own: how many more host steps see the pending command as busy (70_reset_and_hazards.md R286; log 3). -/
  latency : Nat
  /-- The model's own: how many free values have been drawn (log 6). -/
  draws : Nat
  /-- The model's own: the host's program, a list of host actions (30_encoding.md R87; log 1). -/
  hostProgram : List HostAction
  /-- The model's own: the index of the host's next action (10_state.md R31; log 1). -/
  hostIndex : Nat
  /-- The model's own: the address and the answer of every completed host read, newest first (log 10). -/
  hostReads : List (Addr × Word)
  deriving DecidableEq, Repr

/-- The reset state (70_reset_and_hazards.md R280): registers 0, every cell unwritten, nothing pending. -/
def State.reset : State where
  x := 0
  nrk := 0
  k1Len := 0
  k2Len := 0
  sLen := 0
  shLen := 0
  olen := 0
  status := { busy := false, done := false, err := 0, lastOpc := 0 }
  pend := none
  mem := { rkHi := [], rkLo := [], k1 := [], k2 := [], s := [], sh := [] }
  latency := 0
  draws := 0
  hostProgram := []
  hostIndex := 0
  hostReads := []

end Sys2Proof.Machine
end

