-- ==== Sys2Proof/Machine/Flags.lean ====
section
/-! DEFINITION. STATUS, the core's only flag register: its word and its error codes (10_state.md R28,
60_exceptions.md R251). -/
namespace Sys2Proof.Machine

/-- The code of an error kind in STATUS.ERR (60_exceptions.md R251). -/
def errCode : ErrorKind → BitVec 4
  | .invalidKeyFormat => 1
  | .formatError => 2
  | .lengthMismatch => 3
  | .illegalCommand => 4
  | .capacityOverflow => 5
  | .keyIndexError => 6

/-- STATUS as the host reads it: reserved 31:16, LAST_OPC 15:8, ERR 7:4, reserved 3:2, DONE 1, BUSY 0
(10_state.md R28). -/
def statusWord (t : Status) : Word :=
  (0 : BitVec 16) ++ t.lastOpc ++ t.err ++ (0 : BitVec 2) ++ BitVec.ofBool t.done ++ BitVec.ofBool t.busy

/-- STATUS after a completion with this ERR code and LAST_OPC: BUSY 0, DONE 1 (45_control.md R222). -/
def statusDone (code : BitVec 4) (opc : Byte) : Status :=
  { busy := false, done := true, err := code, lastOpc := opc }

/-- STATUS after an accepted command word: BUSY 1, DONE 0, ERR and LAST_OPC kept (20_memory.md R54). -/
def statusBusy (t : Status) : Status := { t with busy := true, done := false }

end Sys2Proof.Machine
end

