-- ==== Sys2Proof/Machine/Ops.lean ====
section
/-! DEFINITION. The named operations over buffers and registers, and the completion of a command, with or without an
error: the core's whole error reporting (45_control.md R222, 60_exceptions.md R250 to R252). -/
namespace Sys2Proof.Machine

/-- The value of a cell, or none where it is marked unwritten (10_state.md R33). -/
def cellGet {α : Type} : Buffer α → Nat → Option α
  | [], _ => none
  | (j, v) :: rest, i => if j = i then some v else cellGet rest i

/-- Writing one cell marks it written (10_state.md R33). Keeps the buffer canonical. -/
def cellSet {α : Type} (i : Nat) (v : α) : Buffer α → Buffer α
  | [] => [(i, v)]
  | (j, w) :: rest =>
    if i < j then (i, v) :: (j, w) :: rest
    else if i = j then (i, v) :: rest
    else (j, w) :: cellSet i v rest

/-- The values of a list as cells i, i+1, and so on. -/
def cellsFrom {α : Type} (i : Nat) : List α → Buffer α
  | [] => []
  | v :: vs => (i, v) :: cellsFrom (i + 1) vs

/-- A command's commit of a whole buffer value: cells 0 .. length-1 are written from the list; a cell at or beyond the
new length keeps its mark, and if written holds an unspecified value (10_state.md R33, R34). Log 6. -/
def cellCommit {α : Type} (free : Nat → α) (vs : List α) (b : Buffer α) : Buffer α :=
  cellsFrom 0 vs ++ (b.filter fun c => vs.length ≤ c.1).map fun c => (c.1, free c.1)

/-- Reads `n` cells from index `i` in rising order, stopping at the first that is unwritten (20_memory.md R68). -/
def readCells {α : Type} (get : Nat → Option α) (cell : Nat → CellId) : Nat → Nat → Except CellId (List α)
  | 0, _ => .ok []
  | n + 1, i =>
    match get i with
    | none => .error (cell i)
    | some v =>
      match readCells get cell n (i + 1) with
      | .error c => .error c
      | .ok vs => .ok (v :: vs)

/-- The upper half of a 64-bit value (20_memory.md R56, R63). -/
def hiHalf (v : Block) : Word := v.extractLsb' 32 32

/-- The lower half of a 64-bit value (20_memory.md R56, R63). -/
def loHalf (v : Block) : Word := v.extractLsb' 0 32

/-- RK[j]: written only when both of its halves have been (20_memory.md R63). -/
def rkCell (m : Memory) (j : Nat) : Option Block :=
  match cellGet m.rkHi j, cellGet m.rkLo j with
  | some hi, some lo => some (hi ++ lo)
  | _, _ => none

/-- `S[0..n) <- t` and `S_LEN <- n`, where n is the length of t (00_scope.md R11, 10_state.md R25). -/
def State.commitS (t : Bits) (s : State) : State :=
  { s with
    mem := { s.mem with s := cellCommit (Config.freeS s.draws) t s.mem.s }
    sLen := t.length
    draws := s.draws + 1 }

/-- `RK[0..m] <- rk` and `NRK <- m+1`, where m+1 is the length of rk (10_state.md R21, R22). -/
def State.commitRk (rk : List Block) (s : State) : State :=
  { s with
    mem := { s.mem with
      rkHi := cellCommit (Config.freeRkHi s.draws) (rk.map hiHalf) s.mem.rkHi
      rkLo := cellCommit (Config.freeRkLo s.draws) (rk.map loHalf) s.mem.rkLo }
    nrk := rk.length
    draws := s.draws + 1 }

/-- `SH[0..n) <- sh` and `SH_LEN <- n`, where n is the length of sh (10_state.md R27). -/
def State.commitSh (sh : List Word) (s : State) : State :=
  { s with
    mem := { s.mem with sh := cellCommit (Config.freeSh s.draws) sh s.mem.sh }
    shLen := sh.length
    draws := s.draws + 1 }

/-- The end of every command: STATUS is written and PEND becomes none (45_control.md R222). -/
def State.finish (code : BitVec 4) (opc : Byte) (s : State) : State :=
  { s with status := statusDone code opc, pend := none }

/-- The completion step of a command with opcode `opc` on state `s`, from what its pseudocode answers
(45_control.md R222). A commit applies all its writes and writes ERR 0; an error writes only STATUS
(60_exceptions.md R250, R252); an unwritten read is the model fault UNWRITTEN_READ (R263). -/
def complete (opc : Byte) (s : State) : Except Stop State → Host.Outcome State Fault Refusal
  | .ok s' => .next (s'.finish 0 opc)
  | .error (.raise e) => .next (s.finish (errCode e) opc)
  | .error (.unwritten c) => .fault (.unwrittenRead c)

/-- The reset input: the core takes its reset state, whatever it is doing (70_reset_and_hazards.md R280, R282). The
host's program, its place in it and what it has read are not the core's, and the draws go on. Log 11. -/
def State.rst (s : State) : State :=
  { State.reset with
    draws := s.draws
    hostProgram := s.hostProgram
    hostIndex := s.hostIndex
    hostReads := s.hostReads }

end Sys2Proof.Machine
end

