-- ==== Sys2Proof/Machine/Operands.lean ====
section
/-! DEFINITION. How a command reads its operands, the validity of a key, and the block view of a bit string
(40_key_schedule.md R100, 20_memory.md R68, R69). -/
namespace Sys2Proof.Machine

/-- An operand read of a command: an unwritten cell stops it (45_control.md R222). -/
def operand {α : Type} : Except CellId α → Except Stop α
  | .ok v => .ok v
  | .error c => .error (.unwritten c)

/-- `if not ok: raise e` (00_scope.md R12). -/
def require (ok : Bool) (e : ErrorKind) : Except Stop Unit :=
  if ok then .ok () else .error (.raise e)

/-- K1[0..K1_LEN). -/
def readK1 (s : State) : Except CellId (List Byte) := readCells (cellGet s.mem.k1) .k1 s.k1Len 0

/-- K2[0..K2_LEN). -/
def readK2 (s : State) : Except CellId (List Byte) := readCells (cellGet s.mem.k2) .k2 s.k2Len 0

/-- S[0..S_LEN). -/
def readS (s : State) : Except CellId Bits := readCells (cellGet s.mem.s) .s s.sLen 0

/-- SH[0..SH_LEN). -/
def readSh (s : State) : Except CellId (List Word) := readCells (cellGet s.mem.sh) .sh s.shLen 0

/-- RK[0..NRK). -/
def readRk (s : State) : Except CellId (List Block) := readCells (rkCell s.mem) .rk s.nrk 0

/-- RK[r]. -/
def readRkAt (s : State) (r : Nat) : Except CellId Block :=
  match rkCell s.mem r with
  | some k => .ok k
  | none => .error (.rk r)

/-- A character code is a decimal digit: 0x30 to 0x39 (40_key_schedule.md R100). -/
def isDigit (c : Byte) : Bool := decide (0x30 ≤ c.toNat) && decide (c.toNat ≤ 0x39)

/-- `digit(c) = c - 0x30` (40_key_schedule.md R100). -/
def digit (c : Byte) : Nat := c.toNat - 0x30

/-- `ValidKey`: every character is a digit (40_key_schedule.md R100). -/
def validKey (k : List Byte) : Bool := k.all isDigit

/-- `ValidDigitKey`: every character is a digit and there is at least one (40_key_schedule.md R100). -/
def validDigitKey (k : List Byte) : Bool := validKey k && !k.isEmpty

/-- The i-th key digit, cyclically: `digit(K[i mod L])` (43_pad.md R180). -/
def cyclicDigit (k : List Byte) (i : Nat) : Nat := digit (k.getD (i % k.length) 0)

/-- `BlockOf(s, b)`: the 64-bit view of block b, first bit at bit 63, a short block padded on the right with zeros
(20_memory.md R69). -/
def blockOf (s : Bits) (b : Nat) : Block :=
  BitVec.ofFnLE fun i : Fin 64 => s.getD (64 * b + (63 - i.val)) false

/-- `BitsOf(v)`: the 64 bits of v, most significant first (20_memory.md R69). -/
def bitsOf (v : Block) : Bits := (List.range 64).map fun j => v.getLsbD (63 - j)

end Sys2Proof.Machine
end

