-- ==== Sys2Proof/Machine/Control.lean ====
section
/-! DEFINITION. The control family: NOP (45_control.md R220). -/
namespace Sys2Proof.Machine

/-- The pseudocode of NOP: a commit without writes (45_control.md R220). -/
def executeNop (s : State) : Except Stop State := .ok s

/-- NOP (45_control.md R220). -/
def execNop (s : State) : Host.Outcome State Fault Refusal := complete 0x00 s (executeNop s)

/-- The completion of an illegal command word: IllegalCommand with LAST_OPC = w[31:24]
(30_encoding.md R85, 60_exceptions.md R257). -/
def completeIllegal (opc : Byte) (s : State) : Host.Outcome State Fault Refusal :=
  complete opc s (.error (.raise .illegalCommand))

end Sys2Proof.Machine
end

