-- ==== Sys2Proof/Machine/KeySchedule.lean ====
section
/-! DEFINITION. The key schedule: ExpandKey and KEYEXP (40_key_schedule.md). -/
namespace Sys2Proof.Machine

/-- A big-endian number, first byte the most significant (40_key_schedule.md R102). -/
def beNat (bs : List Byte) : Nat := bs.foldl (fun acc b => 256 * acc + b.toNat) 0

/-- `ExpandKey(m, n)`: key j is bytes 8j to 8j+7 of XOF(m, 8(n+1)), big-endian, for j in 0..n
(40_key_schedule.md R102). -/
def expandKey (P : Params) (m : List Byte) (n : Nat) : List Block :=
  (List.range (n + 1)).map fun j => BitVec.ofNat 64 (beNat (((P.xof m (8 * (n + 1))).drop (8 * j)).take 8))

/-- The valid keys of the key schedule: K1 is read and checked before K2; an empty key is valid
(40_key_schedule.md R100; 60_exceptions.md R253). The answer is the seed K1 ++ K2 (40_key_schedule.md R101). Log 5. -/
def readSeed (s : State) : Except Stop (List Byte) := do
  let k1 ← operand (readK1 s)
  require (validKey k1) .invalidKeyFormat
  let k2 ← operand (readK2 s)
  require (validKey k2) .invalidKeyFormat
  return k1 ++ k2

/-- The pseudocode of KEYEXP n (40_key_schedule.md R103). -/
def executeKeyexp (P : Params) (n : Byte) (s : State) : Except Stop State := do
  require (decide (n.toNat ≤ P.maxRounds)) .illegalCommand
  let seed ← readSeed s
  return s.commitRk (expandKey P seed n.toNat)

/-- KEYEXP n (40_key_schedule.md R103). -/
def execKeyexp (n : Byte) (s : State) : Host.Outcome State Fault Refusal :=
  complete 0x08 s (executeKeyexp Config.params n s)

end Sys2Proof.Machine
end

