-- ==== Sys2Proof/Machine/Pad.lean ====
section
/-! DEFINITION. The zero-pad insertion engine: PAD1 and UNPAD1 (43_pad.md). -/
namespace Sys2Proof.Machine

/-- `Pad1` from bit position i on: each bit, then as many zeros as the i-th key digit says (43_pad.md R180). -/
def pad1From (k : List Byte) (i : Nat) : Bits → Bits
  | [] => []
  | b :: rest => b :: (List.replicate (cyclicDigit k i) false ++ pad1From k (i + 1) rest)

/-- `Unpad1` from cell p on, with position counter i: the real bit of each group is read, its padding bits are skipped
without being read, and an incomplete last group is a format error (43_pad.md R181). Every pass moves p on by at least
1, so the string's length bounds the number of passes. Log 9. -/
def unpad1From (get : Nat → Option Bool) (k : List Byte) (n : Nat) : Nat → Nat → Nat → Except Stop Bits
  | 0, _, _ => .ok []
  | fuel + 1, p, i =>
    if p < n then
      if p + 1 + cyclicDigit k i > n then .error (.raise .formatError)
      else
        match get p with
        | none => .error (.unwritten (.s p))
        | some b =>
          match unpad1From get k n fuel (p + 1 + cyclicDigit k i) (i + 1) with
          | .error e => .error e
          | .ok rest => .ok (b :: rest)
    else .ok []

/-- The pseudocode of PAD1 (43_pad.md R182). -/
def executePad1 (P : Params) (s : State) : Except Stop State := do
  let k ← operand (readK1 s)
  require (validDigitKey k) .invalidKeyFormat
  let bits ← operand (readS s)
  let t := pad1From k 0 bits
  require (decide (t.length ≤ P.maxBits)) .capacityOverflow
  return s.commitS t

/-- The pseudocode of UNPAD1 (43_pad.md R183). -/
def executeUnpad1 (s : State) : Except Stop State := do
  let k ← operand (readK1 s)
  require (validDigitKey k) .invalidKeyFormat
  let u ← unpad1From (cellGet s.mem.s) k s.sLen s.sLen 0 0
  return s.commitS u

/-- PAD1 (43_pad.md R182). -/
def execPad1 (s : State) : Host.Outcome State Fault Refusal := complete 0x20 s (executePad1 Config.params s)

/-- UNPAD1 (43_pad.md R183). -/
def execUnpad1 (s : State) : Host.Outcome State Fault Refusal := complete 0x21 s (executeUnpad1 s)

end Sys2Proof.Machine
end

