-- ==== Sys2Proof/Machine/Rotate.lean ====
section
/-! DEFINITION. The cyclic bit-rotation engine: ROT and UNROT (44_rotate.md). -/
namespace Sys2Proof.Machine

/-- `rotl(s, k)`: the first k bits move to the end (44_rotate.md R200). -/
def rotl (s : Bits) (k : Nat) : Bits := s.drop k ++ s.take k

/-- `rotr(s, k)`: the last k bits move to the front (44_rotate.md R200). -/
def rotr (s : Bits) (k : Nat) : Bits := s.drop (s.length - k) ++ s.take (s.length - k)

/-- `Rot` from the digit at 1-based position i on: the rotated string and the shifts applied (44_rotate.md R201). -/
def rotFrom : List Byte → Nat → Bits → Bits × List Nat
  | [], _, cur => (cur, [])
  | c :: rest, i, cur =>
    if cur.length = 0 then (cur, [])
    else
      let shift := (digit c * i) % cur.length
      let r := rotFrom rest (i + 1) (rotl cur shift)
      (r.1, shift :: r.2)

/-- `Unrot`: the shifts are undone in reverse order (44_rotate.md R202). -/
def unrot (s : Bits) (sh : List Nat) : Bits := sh.foldr (fun k cur => if k = 0 then cur else rotr cur k) s

/-- How many shifts ROT would have recorded (44_rotate.md R204, R205). -/
def expectedShifts (s : State) : Nat := if s.sLen > 0 then s.k2Len else 0

/-- The pseudocode of ROT (44_rotate.md R203). -/
def executeRot (s : State) : Except Stop State := do
  let k ← operand (readK2 s)
  require (validDigitKey k) .invalidKeyFormat
  let bits ← operand (readS s)
  let r := rotFrom k 1 bits
  return (s.commitS r.1).commitSh (r.2.map (BitVec.ofNat 32))

/-- The pseudocode of UNROT (44_rotate.md R204). -/
def executeUnrot (s : State) : Except Stop State := do
  let k ← operand (readK2 s)
  require (validDigitKey k) .invalidKeyFormat
  require (decide (s.shLen = expectedShifts s)) .lengthMismatch
  let sh ← operand (readSh s)
  require (sh.all fun v => decide (v.toNat < s.sLen)) .lengthMismatch
  let bits ← operand (readS s)
  return s.commitS (unrot bits (sh.map BitVec.toNat))

/-- ROT (44_rotate.md R203). -/
def execRot (s : State) : Host.Outcome State Fault Refusal := complete 0x22 s (executeRot s)

/-- UNROT (44_rotate.md R204). -/
def execUnrot (s : State) : Host.Outcome State Fault Refusal := complete 0x23 s (executeUnrot s)

end Sys2Proof.Machine
end

