-- ==== Sys2Proof/Machine/RoundEngine.lean ====
section
/-! DEFINITION. The round engine: XORK, SUB, ISUB, PERM, IPERM, ENCB, DECB (41_round_engine.md). -/
namespace Sys2Proof.Machine

/-- Nibble j of a block is bits 4j+3 to 4j (41_round_engine.md R121). -/
def nibble (x : Block) (j : Nat) : Nibble := x.extractLsb' (4 * j) 4

/-- Substitutes each of the 16 nibbles in place (41_round_engine.md R121). -/
def mapNibbles (f : Nibble → Nibble) (x : Block) : Block :=
  BitVec.ofFnLE fun i : Fin 64 => (f (nibble x (i.val / 4))).getLsbD (i.val % 4)

/-- `Sbox64` (41_round_engine.md R121). -/
def sbox64 (P : Params) (x : Block) : Block := mapNibbles P.sbox x

/-- `ISbox64` (41_round_engine.md R121). -/
def isbox64 (P : Params) (x : Block) : Block := mapNibbles P.sbox.symm x

/-- `Perm64`: bit PERM(i) of the result is bit i of x; so bit k is bit PERM⁻¹(k) of x (41_round_engine.md R122). -/
def perm64 (P : Params) (x : Block) : Block := BitVec.ofFnLE fun k : Fin 64 => x.getLsbD (P.perm.symm k).val

/-- `IPerm64`: bit i of the result is bit PERM(i) of x (41_round_engine.md R122). -/
def iperm64 (P : Params) (x : Block) : Block := BitVec.ofFnLE fun i : Fin 64 => x.getLsbD (P.perm i).val

/-- One round of `EncBlock` (41_round_engine.md R123). -/
def encRound (P : Params) (x k : Block) : Block := perm64 P (sbox64 P (x ^^^ k))

/-- One round of `DecBlock` (41_round_engine.md R124). -/
def decRound (P : Params) (k x : Block) : Block := isbox64 P (iperm64 P x) ^^^ k

/-- `EncBlock`: a round for each key but the last, in order, then the whitening key, the last
(41_round_engine.md R123). -/
def encBlock (P : Params) (x : Block) (rk : List Block) : Block :=
  rk.dropLast.foldl (encRound P) x ^^^ rk.getLastD 0

/-- `DecBlock`: the whitening key is removed first, then the rounds are undone with the keys before it, last to first
(41_round_engine.md R124; 90_conflicts.md C8). -/
def decBlock (P : Params) (x : Block) (rk : List Block) : Block :=
  rk.dropLast.foldr (decRound P) (x ^^^ rk.getLastD 0)

/-- The pseudocode of XORK r (41_round_engine.md R125). -/
def executeXork (r : Byte) (s : State) : Except Stop State := do
  require (decide (r.toNat < s.nrk)) .keyIndexError
  let k ← operand (readRkAt s r.toNat)
  return { s with x := s.x ^^^ k }

/-- The pseudocode of SUB (41_round_engine.md R126). -/
def executeSub (P : Params) (s : State) : Except Stop State := .ok { s with x := sbox64 P s.x }

/-- The pseudocode of ISUB (41_round_engine.md R127). -/
def executeIsub (P : Params) (s : State) : Except Stop State := .ok { s with x := isbox64 P s.x }

/-- The pseudocode of PERM (41_round_engine.md R128). -/
def executePerm (P : Params) (s : State) : Except Stop State := .ok { s with x := perm64 P s.x }

/-- The pseudocode of IPERM (41_round_engine.md R129). -/
def executeIperm (P : Params) (s : State) : Except Stop State := .ok { s with x := iperm64 P s.x }

/-- The pseudocode of ENCB (41_round_engine.md R130). -/
def executeEncb (P : Params) (s : State) : Except Stop State := do
  require (decide (s.nrk ≠ 0)) .keyIndexError
  let rk ← operand (readRk s)
  return { s with x := encBlock P s.x rk }

/-- The pseudocode of DECB (41_round_engine.md R131). -/
def executeDecb (P : Params) (s : State) : Except Stop State := do
  require (decide (s.nrk ≠ 0)) .keyIndexError
  let rk ← operand (readRk s)
  return { s with x := decBlock P s.x rk }

/-- XORK r (41_round_engine.md R125). -/
def execXork (r : Byte) (s : State) : Host.Outcome State Fault Refusal := complete 0x01 s (executeXork r s)

/-- SUB (41_round_engine.md R126). -/
def execSub (s : State) : Host.Outcome State Fault Refusal := complete 0x02 s (executeSub Config.params s)

/-- ISUB (41_round_engine.md R127). -/
def execIsub (s : State) : Host.Outcome State Fault Refusal := complete 0x03 s (executeIsub Config.params s)

/-- PERM (41_round_engine.md R128). -/
def execPerm (s : State) : Host.Outcome State Fault Refusal := complete 0x04 s (executePerm Config.params s)

/-- IPERM (41_round_engine.md R129). -/
def execIperm (s : State) : Host.Outcome State Fault Refusal := complete 0x05 s (executeIperm Config.params s)

/-- ENCB (41_round_engine.md R130). -/
def execEncb (s : State) : Host.Outcome State Fault Refusal := complete 0x06 s (executeEncb Config.params s)

/-- DECB (41_round_engine.md R131). -/
def execDecb (s : State) : Host.Outcome State Fault Refusal := complete 0x07 s (executeDecb Config.params s)

end Sys2Proof.Machine
end

