-- ==== Sys2Proof/Machine/Stream.lean ====
section
/-! DEFINITION. The stream block processor: ENCS and DECS (42_stream.md). -/
namespace Sys2Proof.Machine

/-- `NB(n) = ceil(n/64)`, the number of blocks (42_stream.md R160). -/
def blockCount (n : Nat) : Nat := (n + 63) / 64

/-- `EncStream`: every block on its own, no chaining (42_stream.md R161). -/
def encStream (P : Params) (s : Bits) (rk : List Block) : Bits :=
  (List.range (blockCount s.length)).flatMap fun b => bitsOf (encBlock P (blockOf s b) rk)

/-- `DecStream`: every block on its own, then only the first m bits are kept (42_stream.md R162). -/
def decStream (P : Params) (c : Bits) (rk : List Block) (m : Nat) : Bits :=
  ((List.range (c.length / 64)).flatMap fun b => bitsOf (decBlock P (blockOf c b) rk)).take m

/-- The pseudocode of ENCS (42_stream.md R163). -/
def executeEncs (P : Params) (s : State) : Except Stop State := do
  let seed ← readSeed s
  let bits ← operand (readS s)
  let rk := expandKey P seed Config.streamRounds
  let s1 := s.commitS (encStream P bits rk)
  return { s1 with olen := BitVec.ofNat 32 s.sLen }.commitRk rk

/-- The pseudocode of DECS (42_stream.md R164). -/
def executeDecs (P : Params) (s : State) : Except Stop State := do
  let seed ← readSeed s
  require (decide (s.sLen % 64 = 0)) .formatError
  require (decide (s.olen.toNat ≤ s.sLen)) .lengthMismatch
  let bits ← operand (readS s)
  let rk := expandKey P seed Config.streamRounds
  return (s.commitS (decStream P bits rk s.olen.toNat)).commitRk rk

/-- ENCS (42_stream.md R163). -/
def execEncs (s : State) : Host.Outcome State Fault Refusal := complete 0x10 s (executeEncs Config.params s)

/-- DECS (42_stream.md R164). -/
def execDecs (s : State) : Host.Outcome State Fault Refusal := complete 0x11 s (executeDecs Config.params s)

end Sys2Proof.Machine
end

