-- ==== Sys2Proof/Machine/Dispatch.lean ====
section
/-! DEFINITION. The meaning of each command, one arm per constructor (30_encoding.md R83). -/
namespace Sys2Proof.Machine

/-- The completion step of a decoded command (45_control.md R222). -/
def exec (i : Instr) (s : State) : Host.Outcome State Fault Refusal :=
  match i with
  | .nop => Sys2Proof.Machine.execNop s
  | .xork r => Sys2Proof.Machine.execXork r s
  | .sub => Sys2Proof.Machine.execSub s
  | .isub => Sys2Proof.Machine.execIsub s
  | .perm => Sys2Proof.Machine.execPerm s
  | .iperm => Sys2Proof.Machine.execIperm s
  | .encb => Sys2Proof.Machine.execEncb s
  | .decb => Sys2Proof.Machine.execDecb s
  | .keyexp n => Sys2Proof.Machine.execKeyexp n s
  | .encs => Sys2Proof.Machine.execEncs s
  | .decs => Sys2Proof.Machine.execDecs s
  | .pad1 => Sys2Proof.Machine.execPad1 s
  | .unpad1 => Sys2Proof.Machine.execUnpad1 s
  | .rot => Sys2Proof.Machine.execRot s
  | .unrot => Sys2Proof.Machine.execUnrot s

end Sys2Proof.Machine
end

