-- ==== Sys2Proof/Machine/HostBus.lean ====
section
/-! DEFINITION. The host register interface: the register map, reads, writes, and one action of the host
(20_memory.md R50 to R68, 70_reset_and_hazards.md R284, R285). -/
namespace Sys2Proof.Machine

/-- The registers and window words of the register map (20_memory.md R53). -/
inductive Reg where
  | cmd
  | status
  | xHi
  | xLo
  | nrk
  | olen
  | sLen
  | shLen
  | k1Len
  | k2Len
  | capMaxBits
  | capMaxKey
  | capMaxRounds
  | rkHi (j : Nat)
  | rkLo (j : Nat)
  | k1Ch (j : Nat)
  | k2Ch (j : Nat)
  | shW (j : Nat)
  | sW (w : Nat)
  deriving DecidableEq, Repr

/-- The register at an aligned byte address, or none where the address is unmapped (20_memory.md R52, R53). -/
def regAt (P : Params) (a : Nat) : Option Reg :=
  if a = 0x00000 then some .cmd
  else if a = 0x00004 then some .status
  else if a = 0x00008 then some .xHi
  else if a = 0x0000C then some .xLo
  else if a = 0x00010 then some .nrk
  else if a = 0x00014 then some .olen
  else if a = 0x00018 then some .sLen
  else if a = 0x0001C then some .shLen
  else if a = 0x00020 then some .k1Len
  else if a = 0x00024 then some .k2Len
  else if a = 0x00028 then some .capMaxBits
  else if a = 0x0002C then some .capMaxKey
  else if a = 0x00030 then some .capMaxRounds
  else if 0x01000 ≤ a ∧ (a - 0x01000) / 8 ≤ P.maxRounds then
    if (a - 0x01000) % 8 = 0 then some (.rkHi ((a - 0x01000) / 8)) else some (.rkLo ((a - 0x01000) / 8))
  else if 0x02000 ≤ a ∧ (a - 0x02000) / 4 < P.maxKey then some (.k1Ch ((a - 0x02000) / 4))
  else if 0x03000 ≤ a ∧ (a - 0x03000) / 4 < P.maxKey then some (.k2Ch ((a - 0x03000) / 4))
  else if 0x04000 ≤ a ∧ (a - 0x04000) / 4 < P.maxKey then some (.shW ((a - 0x04000) / 4))
  else if 0x10000 ≤ a ∧ 32 * ((a - 0x10000) / 4) < P.maxBits then some (.sW ((a - 0x10000) / 4))
  else none

/-- A host read of one cell at index j of a buffer whose length is n: any value at or beyond the length
(20_memory.md R67), a fault on an unwritten cell below it (R68), else the cell. -/
def readCellBelow {α : Type} (n j : Nat) (free : α) (cell : CellId) (v : Option α) : Except CellId α :=
  if j < n then
    match v with
    | some x => .ok x
    | none => .error cell
  else .ok free

/-- Cell i of S as a host read of word w sees it: a drawn bit at or beyond S_LEN, each bit drawn separately
(20_memory.md R67). -/
def sCellSeen (s : State) (w i : Nat) : Option Bool :=
  if i < s.sLen then cellGet s.mem.s i else some ((Config.freeRead s.draws).getLsbD (31 - (i - 32 * w)))

/-- 32 bits as a word, the first bit at word bit 31 (20_memory.md R66). -/
def packWord (bs : Bits) : Word := BitVec.ofFnLE fun i : Fin 32 => bs.getD (31 - i.val) false

/-- What a host read of a register answers (20_memory.md R54 to R68). The CAP registers are hard-wired to the
parameters (R62). A K1_CH or K2_CH read answers a zero-extended cell, a drawn one too (R64, R67; log 7). -/
def readReg (P : Params) (s : State) : Reg → Except CellId Word
  | .cmd => .ok 0
  | .status => .ok (statusWord s.status)
  | .xHi => .ok (hiHalf s.x)
  | .xLo => .ok (loHalf s.x)
  | .nrk => .ok (BitVec.ofNat 32 s.nrk)
  | .olen => .ok s.olen
  | .sLen => .ok (BitVec.ofNat 32 s.sLen)
  | .shLen => .ok (BitVec.ofNat 32 s.shLen)
  | .k1Len => .ok (BitVec.ofNat 32 s.k1Len)
  | .k2Len => .ok (BitVec.ofNat 32 s.k2Len)
  | .capMaxBits => .ok (BitVec.ofNat 32 P.maxBits)
  | .capMaxKey => .ok (BitVec.ofNat 32 P.maxKey)
  | .capMaxRounds => .ok (BitVec.ofNat 32 P.maxRounds)
  | .rkHi j => readCellBelow s.nrk j (Config.freeRead s.draws) (.rk j) ((rkCell s.mem j).map hiHalf)
  | .rkLo j => readCellBelow s.nrk j (Config.freeRead s.draws) (.rk j) ((rkCell s.mem j).map loHalf)
  | .k1Ch j =>
    (readCellBelow s.k1Len j ((Config.freeRead s.draws).setWidth 8) (.k1 j) (cellGet s.mem.k1 j)).map (·.setWidth 32)
  | .k2Ch j =>
    (readCellBelow s.k2Len j ((Config.freeRead s.draws).setWidth 8) (.k2 j) (cellGet s.mem.k2 j)).map (·.setWidth 32)
  | .shW j => readCellBelow s.shLen j (Config.freeRead s.draws) (.sh j) (cellGet s.mem.sh j)
  | .sW w => (readCells (sCellSeen s w) .s 32 (32 * w)).map packWord

/-- Writes S[32w + k] from word bit 31-k, for k in 0..31 (20_memory.md R66). -/
def writeSWord (w : Nat) (v : Word) (b : Buffer Bool) : Buffer Bool :=
  (List.range 32).foldl (fun acc k => cellSet (32 * w + k) (v.getLsbD (31 - k)) acc) b

/-- An accepted command word: PEND holds it, BUSY is set, DONE is cleared, and nothing else of the core changes
(20_memory.md R54). The time to its completion is drawn (70_reset_and_hazards.md R286; log 3). -/
def State.accept (v : Word) (s : State) : State :=
  { s with
    pend := some v
    status := statusBusy s.status
    latency := Config.coreLatency s.draws
    draws := s.draws + 1 }

/-- What a host write to a register does while the core is idle (20_memory.md R54 to R66). A length register ignores a
value above its legal maximum (R57, R59, R60, R61); STATUS and the CAP registers ignore every write (R55, R62). -/
def writeReg (P : Params) (v : Word) (s : State) : Reg → State
  | .cmd => s.accept v
  | .status => s
  | .xHi => { s with x := v ++ loHalf s.x }
  | .xLo => { s with x := hiHalf s.x ++ v }
  | .nrk => if v.toNat ≤ P.maxRounds + 1 then { s with nrk := v.toNat } else s
  | .olen => { s with olen := v }
  | .sLen => if v.toNat ≤ P.maxBits then { s with sLen := v.toNat } else s
  | .shLen => if v.toNat ≤ P.maxKey then { s with shLen := v.toNat } else s
  | .k1Len => if v.toNat ≤ P.maxKey then { s with k1Len := v.toNat } else s
  | .k2Len => if v.toNat ≤ P.maxKey then { s with k2Len := v.toNat } else s
  | .capMaxBits => s
  | .capMaxKey => s
  | .capMaxRounds => s
  | .rkHi j => { s with mem := { s.mem with rkHi := cellSet j v s.mem.rkHi } }
  | .rkLo j => { s with mem := { s.mem with rkLo := cellSet j v s.mem.rkLo } }
  | .k1Ch j => { s with mem := { s.mem with k1 := cellSet j (v.setWidth 8) s.mem.k1 } }
  | .k2Ch j => { s with mem := { s.mem with k2 := cellSet j (v.setWidth 8) s.mem.k2 } }
  | .shW j => { s with mem := { s.mem with sh := cellSet j v s.mem.sh } }
  | .sW w => { s with mem := { s.mem with s := writeSWord w v s.mem.s } }

/-- The host goes on to its next action (10_state.md R31). -/
def State.advance (s : State) : State := { s with hostIndex := s.hostIndex + 1 }

/-- The host receives the answer of a read; a fresh free value stands ready for the next one (20_memory.md R67). -/
def State.record (a : Addr) (v : Word) (s : State) : State :=
  { s with hostReads := (a, v) :: s.hostReads, draws := s.draws + 1 }

/-- The address of STATUS (20_memory.md R53). -/
def statusAddr : Addr := 0x00004

/-- The register an access reaches, or none where it gets a bus error: a width other than 32 bits, a misaligned or an
unmapped address (20_memory.md R51, R52). -/
def accessReg (P : Params) (a : Addr) (bytes : Nat) : Option Reg :=
  if bytes = 4 ∧ a.toNat % 4 = 0 then regAt P a.toNat else none

/-- A host read. While busy only STATUS may be read (70_reset_and_hazards.md R284; log 8); a bus error refuses the host
step (20_memory.md R51). -/
def hostRead (P : Params) (a : Addr) (bytes : Nat) (s : State) : Host.Outcome State Fault Refusal :=
  if s.status.busy ∧ ¬(a = statusAddr ∧ bytes = 4) then .fault (.protocol a)
  else
    match accessReg P a bytes with
    | none => .refused (.busError a)
    | some r =>
      match readReg P s r with
      | .error c => .fault (.unwrittenRead c)
      | .ok v => .next (s.record a v).advance

/-- A host write. While busy none is allowed (70_reset_and_hazards.md R284, R285; log 8); a bus error refuses the host
step (20_memory.md R51). -/
def hostWrite (P : Params) (a : Addr) (bytes : Nat) (v : Word) (s : State) : Host.Outcome State Fault Refusal :=
  if s.status.busy then .fault (.protocol a)
  else
    match accessReg P a bytes with
    | none => .refused (.busError a)
    | some r => .next (writeReg P v s r).advance

/-- One read of STATUS by POLL: the host goes on when it has seen BUSY = 0 (30_encoding.md R87). -/
def hostPoll (s : State) : Host.Outcome State Fault Refusal :=
  if s.status.busy then .next (s.record statusAddr (statusWord s.status))
  else .next (s.record statusAddr (statusWord s.status)).advance

/-- One action of the host. -/
def hostAct (P : Params) (s : State) : HostAction → Host.Outcome State Fault Refusal
  | .read a bytes => hostRead P a bytes s
  | .write a bytes v => hostWrite P a bytes v s
  | .poll => hostPoll s
  | .rst => .next s.rst.advance

/-- One host step less until the pending command completes (70_reset_and_hazards.md R286; log 3). -/
def State.tick (s : State) : State := { s with latency := s.latency - 1 }

/-- One step of the host: its next action, or nothing where its program has ended (log 2). -/
def hostStep (P : Params) (s : State) : Host.Outcome State Fault Refusal :=
  match s.hostProgram[s.hostIndex]? with
  | none => .next s.tick
  | some a => hostAct P s.tick a

end Sys2Proof.Machine
end

