-- ==== Sys2Proof/Machine/Sequencer.lean ====
section
/-! DEFINITION. The command sequencer, and which agent moves next (45_control.md R222, 70_reset_and_hazards.md R286). -/
namespace Sys2Proof.Machine

/-- `CompleteCommand(w)`: a legal word runs its command, an illegal one completes as IllegalCommand
(45_control.md R222, 30_encoding.md R85). -/
def completeCommand (w : Word) (s : State) : Host.Outcome State Fault Refusal :=
  match decode Config.params w with
  | .ok i => exec i s
  | .error _ => completeIllegal (opcField w) s

/-- The next agent to move: the sequencer completes the pending command once its latency has passed, else the host acts
(20_memory.md R72, 70_reset_and_hazards.md R286; log 3). -/
def agentStep (s : State) : Host.Outcome State Fault Refusal :=
  match s.pend, s.latency with
  | some w, 0 => completeCommand w s
  | _, _ => hostStep Config.params s

/-- The state in which the sequencer's next step completes the command word w: the word has been accepted and its
latency has passed. Log 2. -/
def State.pending (w : Word) (s : State) : State :=
  { s with pend := some w, status := statusBusy s.status, latency := 0 }

end Sys2Proof.Machine
end

