-- ==== Sys2Proof/Machine/Step.lean ====
section
/-! DEFINITION. One step of the machine: one host action or one completion (20_memory.md R72). -/
namespace Sys2Proof.Machine

/-- One step: a host action, or the completion of the pending command (20_memory.md R72, 45_control.md R222). -/
def step (s : State) : Host.Outcome State Fault Refusal := agentStep s

/-- `s` with a command word accepted and its latency passed, so that the next step completes it: the core fetches
nothing, and a command reaches it as a host write to CMD (20_memory.md R54, R75). Log 2. -/
def State.withFetchWord (s : State) (nbits w : Nat) : State := s.pending (tableWord nbits w)

end Sys2Proof.Machine
end

