-- ==== Sys2Proof/Machine/Assembler.lean ====
section
/-! DEFINITION. Host programs as text: the assembler syntax and the pseudo-commands (30_encoding.md R87, R88). -/
namespace Sys2Proof.Machine

/-- A bare command: a write of its word to CMD, then POLL (30_encoding.md R87). -/
def commandActions (i : Instr) : List HostAction := [.write 0x00000 4 (encode i), .poll]

/-- The pseudo-commands (30_encoding.md R88). -/
inductive Pseudo where
  | encrypt
  | decrypt
  | round (r : Byte)
  | iround (r : Byte)
  deriving DecidableEq, Repr

/-- The commands a pseudo-command stands for, in order (30_encoding.md R88). -/
def expandPseudo : Pseudo → List Instr
  | .encrypt => [.encs, .pad1, .rot]
  | .decrypt => [.unrot, .unpad1, .decs]
  | .round r => [.xork r, .sub, .perm]
  | .iround r => [.iperm, .isub, .xork r]

/-- The host actions of a pseudo-command: each of its commands is followed by a poll (30_encoding.md R88). -/
def pseudoActions (p : Pseudo) : List HostAction := (expandPseudo p).flatMap commandActions

/-- The capital of a letter; mnemonics are case-insensitive (30_encoding.md R87). -/
def upperChar (c : Char) : Char := if 97 ≤ c.toNat ∧ c.toNat ≤ 122 then Char.ofNat (c.toNat - 32) else c

/-- The words of a line, separated by spaces and commas; `cur` is the word being read, last character first. -/
def lineWords : List Char → List Char → List (List Char)
  | cur, [] => if cur = [] then [] else [cur.reverse]
  | cur, c :: rest =>
    if c = ' ' ∨ c = ',' then
      if cur = [] then lineWords [] rest else cur.reverse :: lineWords [] rest
    else lineWords (c :: cur) rest

/-- The value of a digit, decimal or hexadecimal. -/
def digitValue (c : Char) : Option Nat :=
  if 48 ≤ c.toNat ∧ c.toNat ≤ 57 then some (c.toNat - 48)
  else if 65 ≤ (upperChar c).toNat ∧ (upperChar c).toNat ≤ 70 then some ((upperChar c).toNat - 55)
  else none

/-- A number in a base, from its digits; `acc` is the number read so far. -/
def numberFrom (base acc : Nat) : List Char → Option Nat
  | [] => some acc
  | c :: rest =>
    match digitValue c with
    | none => none
    | some d => if d < base then numberFrom base (base * acc + d) rest else none

/-- A decimal natural or a hex `0x..` literal (30_encoding.md R87). -/
def parseNumber : List Char → Option Nat
  | '0' :: 'x' :: c :: rest => numberFrom 16 0 (c :: rest)
  | c :: rest => numberFrom 10 0 (c :: rest)
  | [] => none

/-- The commands of a mnemonic without an immediate, in capitals (30_encoding.md R83, R88). -/
def plainMnemonic : List Char → Option (List Instr)
  | ['N', 'O', 'P'] => some [.nop]
  | ['S', 'U', 'B'] => some [.sub]
  | ['I', 'S', 'U', 'B'] => some [.isub]
  | ['P', 'E', 'R', 'M'] => some [.perm]
  | ['I', 'P', 'E', 'R', 'M'] => some [.iperm]
  | ['E', 'N', 'C', 'B'] => some [.encb]
  | ['D', 'E', 'C', 'B'] => some [.decb]
  | ['E', 'N', 'C', 'S'] => some [.encs]
  | ['D', 'E', 'C', 'S'] => some [.decs]
  | ['P', 'A', 'D', '1'] => some [.pad1]
  | ['U', 'N', 'P', 'A', 'D', '1'] => some [.unpad1]
  | ['R', 'O', 'T'] => some [.rot]
  | ['U', 'N', 'R', 'O', 'T'] => some [.unrot]
  | ['E', 'N', 'C', 'R', 'Y', 'P', 'T'] => some (expandPseudo .encrypt)
  | ['D', 'E', 'C', 'R', 'Y', 'P', 'T'] => some (expandPseudo .decrypt)
  | _ => none

/-- The commands of a mnemonic with its immediate, in capitals (30_encoding.md R83, R88). -/
def immMnemonic (r : Byte) : List Char → Option (List Instr)
  | ['X', 'O', 'R', 'K'] => some [.xork r]
  | ['K', 'E', 'Y', 'E', 'X', 'P'] => some [.keyexp r]
  | ['R', 'O', 'U', 'N', 'D'] => some (expandPseudo (.round r))
  | ['I', 'R', 'O', 'U', 'N', 'D'] => some (expandPseudo (.iround r))
  | _ => none

/-- The host actions of one line, from its words; none where the line is not of the syntax (30_encoding.md R87). -/
def wordsActions : List (List Char) → Option (List HostAction)
  | [] => some []
  | [w] =>
    if w = ['P', 'O', 'L', 'L'] then some [.poll]
    else (plainMnemonic (w.map upperChar)).map fun is => is.flatMap commandActions
  | [w, n] =>
    match parseNumber n with
    | none => none
    | some v =>
      if w = ['R'] then if v < 2 ^ 20 then some [.read (BitVec.ofNat 20 v) 4] else none
      else if v < 256 then
        (immMnemonic (BitVec.ofNat 8 v) (w.map upperChar)).map fun is => is.flatMap commandActions
      else none
  | [w, a, n] =>
    match parseNumber a, parseNumber n with
    | some addr, some v =>
      if w = ['W'] ∧ addr < 2 ^ 20 ∧ v < 2 ^ 32 then some [.write (BitVec.ofNat 20 addr) 4 (BitVec.ofNat 32 v)]
      else none
    | _, _ => none
  | _ => none

/-- The host actions of one line of a host program (30_encoding.md R87). Log 15. -/
def assembleLine (line : List Char) : Option (List HostAction) := wordsActions (lineWords [] line)

/-- The host actions of a host program, one line after another (30_encoding.md R87). -/
def assemble : List (List Char) → Option (List HostAction)
  | [] => some []
  | line :: rest =>
    match assembleLine line, assemble rest with
    | some a, some b => some (a ++ b)
    | _, _ => none

end Sys2Proof.Machine
end

