-- ==== Sys2Proof/Machine/HostCodec.lean ====
section
/-! DEFINITION. The host's codec, outside the core: text to bits and back (47_host_codec.md). No command performs it. -/
namespace Sys2Proof.Machine

/-- The one error of the codec, FormatError (47_host_codec.md R231 to R233). -/
inductive CodecError where
  | formatError
  deriving DecidableEq, Repr

/-- The 7 bits of a character code, most significant first (47_host_codec.md R231). -/
def charBits (c : Nat) : Bits := (List.range 7).map fun k => c.testBit (6 - k)

/-- `TextToBits` on character codes; a code above 127 is a FormatError (47_host_codec.md R231). -/
def textToBits : List Nat → Except CodecError Bits
  | [] => .ok []
  | c :: rest =>
    if c > 127 then .error .formatError
    else
      match textToBits rest with
      | .error e => .error e
      | .ok b => .ok (charBits c ++ b)

/-- The number whose binary digits are these bits, most significant first (47_host_codec.md R232). -/
def bitsNat (b : Bits) : Nat := b.foldl (fun acc x => 2 * acc + x.toNat) 0

/-- `BitsToText`: the character codes of consecutive 7-bit groups; a length that is not a multiple of 7 is a
FormatError (47_host_codec.md R232). -/
def bitsToText (b : Bits) : Except CodecError (List Nat) :=
  if b.length % 7 ≠ 0 then .error .formatError
  else .ok ((List.range (b.length / 7)).map fun g => bitsNat ((b.drop (7 * g)).take 7))

/-- A bit string held as text; a character other than '0' or '1' is a FormatError (47_host_codec.md R233). -/
def bitsOfText : List Char → Except CodecError Bits
  | [] => .ok []
  | c :: rest =>
    match bitsOfText rest with
    | .error e => .error e
    | .ok b =>
      if c = '0' then .ok (false :: b)
      else if c = '1' then .ok (true :: b)
      else .error .formatError

end Sys2Proof.Machine
end

