-- ==== Sys2Proof/Safety.lean ====
section
/-! DEFINITION. The terms claims are made in: what a state holds, when the core is idle, and the invariant of the
reachable states. -/
namespace Sys2Proof.Machine

/-- The leading cells read through `get` are written and hold these values. -/
def Holds {α : Type} (get : Nat → Option α) (vs : List α) : Prop := ∀ j, j < vs.length → get j = vs[j]?

/-- K1[0..K1_LEN) is this key, every cell written (10_state.md R23). -/
def K1Is (s : State) (k : List Byte) : Prop := k.length = s.k1Len ∧ Holds (cellGet s.mem.k1) k

/-- K2[0..K2_LEN) is this key, every cell written (10_state.md R24). -/
def K2Is (s : State) (k : List Byte) : Prop := k.length = s.k2Len ∧ Holds (cellGet s.mem.k2) k

/-- S[0..S_LEN) is this bit string, every cell written (10_state.md R25). -/
def SIs (s : State) (t : Bits) : Prop := t.length = s.sLen ∧ Holds (cellGet s.mem.s) t

/-- SH[0..SH_LEN) is this sequence, every cell written (10_state.md R27). -/
def ShIs (s : State) (sh : List Word) : Prop := sh.length = s.shLen ∧ Holds (cellGet s.mem.sh) sh

/-- RK[0..NRK) is this sequence of keys, every cell written (10_state.md R21). -/
def RkIs (s : State) (rk : List Block) : Prop := rk.length = s.nrk ∧ Holds (rkCell s.mem) rk

/-- Every character is a decimal digit (40_key_schedule.md R100). -/
def AllDigits (k : List Byte) : Prop := ∀ c ∈ k, 0x30 ≤ c.toNat ∧ c.toNat ≤ 0x39

/-- No command is pending (10_state.md R30). -/
def Idle (s : State) : Prop := s.pend = none ∧ s.status.busy = false ∧ s.latency = 0

/-- A command is pending and its completion has not come yet (10_state.md R30, 70_reset_and_hazards.md R286). -/
def Waiting (s : State) (w : Word) : Prop := s.pend = some w ∧ s.status.busy = true ∧ 0 < s.latency

/-- The host's next action (30_encoding.md R87). -/
def HostNext (s : State) (a : HostAction) : Prop := s.hostProgram[s.hostIndex]? = some a

/-- The commands of a list, one after another, take s to t through next states alone (30_encoding.md R88). -/
def Runs : List Instr → State → State → Prop
  | [], s, t => t = s
  | i :: is, s, t => ∃ u, exec i s = .next u ∧ Runs is u t

/-- STATUS after a completion: BUSY 0, DONE 1, this ERR code and this LAST_OPC (45_control.md R222). -/
def completed (code : BitVec 4) (opc : Byte) : Status :=
  { busy := false, done := true, err := code, lastOpc := opc }

/-- `rk` is the schedule of n+1 keys for a seed: key j is the big-endian number of bytes 8j to 8j+7 of XOF(seed, 8(n+1))
(40_key_schedule.md R102). -/
def IsSchedule (P : Params) (seed : List Byte) (n : Nat) (rk : List Block) : Prop :=
  rk.length = n + 1 ∧
    ∀ j, j ≤ n → (rk.getD j 0).toNat =
      ∑ b ∈ Finset.range 8, ((P.xof seed (8 * (n + 1))).getD (8 * j + b) 0).toNat * 2 ^ (8 * (7 - b))

/-- The number of padding zeros after bit i: the i-th digit of the key, cyclically (43_pad.md R180). -/
def padDigit (k : List Byte) (i : Nat) : Nat := (k.getD (i % k.length) 0).toNat - 0x30

/-- Where bit i stands in the padded string; for i the length of the string, the padded length (43_pad.md R180). -/
def padPos (k : List Byte) (i : Nat) : Nat := i + ∑ m ∈ Finset.range i, padDigit k m

/-- The shift of the j-th digit of the key, counted from 0, on a string of length n (44_rotate.md R201). -/
def rotShift (k : List Byte) (n j : Nat) : Nat := (((k.getD j 0).toNat - 0x30) * (j + 1)) % n

/-- What every reachable state satisfies: canonical memory within the capacities, legal lengths, and BUSY, DONE, ERR
and PEND in step (10_state.md R21 to R30, 60_exceptions.md R251). -/
structure Inv (P : Params) (s : State) : Prop where
  memWf : s.mem.wf
  rkHiIn : ∀ c ∈ s.mem.rkHi, c.1 ≤ P.maxRounds
  rkLoIn : ∀ c ∈ s.mem.rkLo, c.1 ≤ P.maxRounds
  k1In : ∀ c ∈ s.mem.k1, c.1 < P.maxKey
  k2In : ∀ c ∈ s.mem.k2, c.1 < P.maxKey
  sIn : ∀ c ∈ s.mem.s, c.1 < P.maxBits
  shIn : ∀ c ∈ s.mem.sh, c.1 < P.maxKey
  nrkLe : s.nrk ≤ P.maxRounds + 1
  k1Le : s.k1Len ≤ P.maxKey
  k2Le : s.k2Len ≤ P.maxKey
  sLe : s.sLen ≤ P.maxBits
  shLe : s.shLen ≤ P.maxKey
  busyPend : s.status.busy = s.pend.isSome
  busyNotDone : s.status.busy = true → s.status.done = false
  errLegal : s.status.err.toNat ≤ 6
  idleLatency : s.pend = none → s.latency = 0

end Sys2Proof.Machine
end

