-- ==== Sys2Proof/Certificates/Slice0/Obligations.lean ====
section
/-! DEFINITION. The statements about the machine for the provers, each from the numbered rules of spec/. -/

open Sys2Proof Sys2Proof.Machine

/-! ## Encoding -/

/-- The assembled word of a command is (OPC << 24) | (IMM8 << 16), and decoding the word of a well-formed command gives
that command back, with every immediate (30_encoding.md R80, R81, R83, R84, R87). -/
def Obligations.DecodeOfEncode : Prop :=
  ∀ (P : Params) (i : Instr),
    encode i = (i.opcode.setWidth 32 <<< 24) ||| (i.imm.setWidth 32 <<< 16) ∧
      (i.wf P = true → decode P (encode i) = .ok i)

/-- A legal word is the word of the command it decodes to, and that command is well formed: no bit of a word is ignored
(30_encoding.md R84, R85). -/
def Obligations.EncodeOfDecode : Prop :=
  ∀ (P : Params) (w : Word) (i : Instr), decode P w = .ok i → encode i = w ∧ i.wf P = true

/-- Decoding selects the row of the opcode map with (w AND mask) = match (30_encoding.md R83, R84). -/
def Obligations.DecodeSelectsOpcodeMapRow : Prop :=
  ∀ (P : Params) (w : Word),
    (decode P w = .ok .nop ↔ w &&& 0xFFFFFFFF#32 = 0x00000000#32) ∧
    (∀ r : Byte, decode P w = .ok (.xork r) ↔ w &&& 0xFF00FFFF#32 = 0x01000000#32 ∧ w.extractLsb' 16 8 = r) ∧
    (decode P w = .ok .sub ↔ w &&& 0xFFFFFFFF#32 = 0x02000000#32) ∧
    (decode P w = .ok .isub ↔ w &&& 0xFFFFFFFF#32 = 0x03000000#32) ∧
    (decode P w = .ok .perm ↔ w &&& 0xFFFFFFFF#32 = 0x04000000#32) ∧
    (decode P w = .ok .iperm ↔ w &&& 0xFFFFFFFF#32 = 0x05000000#32) ∧
    (decode P w = .ok .encb ↔ w &&& 0xFFFFFFFF#32 = 0x06000000#32) ∧
    (decode P w = .ok .decb ↔ w &&& 0xFFFFFFFF#32 = 0x07000000#32) ∧
    (∀ n : Byte, decode P w = .ok (.keyexp n) ↔
      w &&& 0xFF00FFFF#32 = 0x08000000#32 ∧ w.extractLsb' 16 8 = n ∧ n.toNat ≤ P.maxRounds) ∧
    (decode P w = .ok .encs ↔ w &&& 0xFFFFFFFF#32 = 0x10000000#32) ∧
    (decode P w = .ok .decs ↔ w &&& 0xFFFFFFFF#32 = 0x11000000#32) ∧
    (decode P w = .ok .pad1 ↔ w &&& 0xFFFFFFFF#32 = 0x20000000#32) ∧
    (decode P w = .ok .unpad1 ↔ w &&& 0xFFFFFFFF#32 = 0x21000000#32) ∧
    (decode P w = .ok .rot ↔ w &&& 0xFFFFFFFF#32 = 0x22000000#32) ∧
    (decode P w = .ok .unrot ↔ w &&& 0xFFFFFFFF#32 = 0x23000000#32)

/-- The four ways a word is illegal (30_encoding.md R85, items 1 to 4). -/
def IllegalWord (P : Params) (w : Word) : Prop :=
  w.extractLsb' 24 8 ∉ [0x00#8, 0x01#8, 0x02#8, 0x03#8, 0x04#8, 0x05#8, 0x06#8, 0x07#8, 0x08#8, 0x10#8, 0x11#8,
    0x20#8, 0x21#8, 0x22#8, 0x23#8] ∨
  w.extractLsb' 0 16 ≠ 0#16 ∨
  (w.extractLsb' 24 8 ≠ 0x01#8 ∧ w.extractLsb' 24 8 ≠ 0x08#8 ∧ w.extractLsb' 16 8 ≠ 0#8) ∨
  (w.extractLsb' 24 8 = 0x08#8 ∧ P.maxRounds < (w.extractLsb' 16 8).toNat)

/-- An illegal word completes with IllegalCommand and LAST_OPC = w[31:24], and changes no other state
(30_encoding.md R85, 60_exceptions.md R257). -/
def Obligations.IllegalWordCompletes : Prop :=
  ∀ (s : State) (w : Word), s.pend = some w → s.latency = 0 → IllegalWord Config.params w →
    step s = .next { s with status := completed 4 (w.extractLsb' 24 8), pend := none }

/-- Every word is one of the 15 commands or illegal, never both (30_encoding.md R84, R86). -/
def Obligations.DecodeIsTotal : Prop :=
  ∀ (P : Params) (w : Word), (∃ i, decode P w = .ok i) ↔ ¬ IllegalWord P w

/-- One word of each family, written out from the opcode map, decodes to its command (30_encoding.md R83). -/
def Obligations.SampleWordsDecode : Prop :=
  ∀ P : Params,
    decode P 0x00000000#32 = .ok .nop ∧
    decode P 0x01030000#32 = .ok (.xork 3) ∧
    decode P 0x06000000#32 = .ok .encb ∧
    decode P 0x080C0000#32 = .ok (.keyexp 12) ∧
    decode P 0x11000000#32 = .ok .decs ∧
    decode P 0x21000000#32 = .ok .unpad1 ∧
    decode P 0x22000000#32 = .ok .rot

/-! ## The completion step -/

/-- When the pending word decodes to a command and its latency has passed, the step is that command
(45_control.md R222). -/
def Obligations.StepRunsDecodedCommand : Prop :=
  ∀ (s : State) (w : Word) (i : Instr), s.pend = some w → s.latency = 0 → decode Config.params w = .ok i →
    step s = exec i s

/-- Every completion clears BUSY and PEND, sets DONE, records the opcode, and writes ERR with 0 or one of the six codes
(45_control.md R222, 60_exceptions.md R251, R261). -/
def Obligations.CompletionWritesStatus : Prop :=
  ∀ (i : Instr) (s t : State), exec i s = .next t →
    t.pend = none ∧ t.status.busy = false ∧ t.status.done = true ∧ t.status.lastOpc = (encode i).extractLsb' 24 8 ∧
      t.status.err.toNat ≤ 6

/-- A command that raises an error writes only STATUS, and no longer is pending (60_exceptions.md R252). -/
def Obligations.ErrorWritesOnlyStatus : Prop :=
  ∀ (i : Instr) (s t : State), exec i s = .next t → t.status.err ≠ 0 →
    t = { s with status := t.status, pend := none }

/-- What a command does depends on no earlier STATUS, no pending word, no latency and nothing of the host's, and none of
these but STATUS and PEND is written (00_scope.md R19, 45_control.md R224). -/
def Obligations.CommandDependsOnlyOnCore : Prop :=
  ∀ (i : Instr) (s : State) (st : Status) (p : Option Word) (l hi : Nat) (hp : List HostAction)
    (hr : List (Addr × Word)),
    exec i { s with status := st, pend := p, latency := l, hostProgram := hp, hostIndex := hi, hostReads := hr } =
      match exec i s with
      | .next t => .next { t with latency := l, hostProgram := hp, hostIndex := hi, hostReads := hr }
      | .fault f => .fault f
      | .refused r => .refused r

/-- Which commands write each piece of state (10_state.md R20 to R27): K1 and K2 none, X the round engine's seven, RK
and NRK KEYEXP, ENCS and DECS, OLEN ENCS, SH ROT, S the six stream, pad and rotate commands. -/
def Obligations.WritersOfEachRegister : Prop :=
  ∀ (i : Instr) (s t : State), exec i s = .next t →
    (t.k1Len = s.k1Len ∧ t.k2Len = s.k2Len ∧ t.mem.k1 = s.mem.k1 ∧ t.mem.k2 = s.mem.k2) ∧
    (i.opcode ∉ [0x01#8, 0x02#8, 0x03#8, 0x04#8, 0x05#8, 0x06#8, 0x07#8] → t.x = s.x) ∧
    (i.opcode ∉ [0x08#8, 0x10#8, 0x11#8] →
      t.nrk = s.nrk ∧ t.mem.rkHi = s.mem.rkHi ∧ t.mem.rkLo = s.mem.rkLo) ∧
    (i.opcode ≠ 0x10#8 → t.olen = s.olen) ∧
    (i.opcode ≠ 0x22#8 → t.shLen = s.shLen ∧ t.mem.sh = s.mem.sh) ∧
    (i.opcode ∉ [0x10#8, 0x11#8, 0x20#8, 0x21#8, 0x22#8, 0x23#8] → t.sLen = s.sLen ∧ t.mem.s = s.mem.s)

/-- A cell at or beyond its length is not read: whatever a host writes there, a command ends in the same state but for
that buffer, and the values below the new length are the same (10_state.md R34). -/
def Obligations.CellsBeyondLengthAreNotRead : Prop :=
  ∀ (i : Instr) (s t : State) (k : Nat), exec i s = .next t →
    (∀ v, s.k1Len ≤ k → exec i { s with mem := { s.mem with k1 := cellSet k v s.mem.k1 } } =
      .next { t with mem := { t.mem with k1 := cellSet k v t.mem.k1 } }) ∧
    (∀ v, s.k2Len ≤ k → exec i { s with mem := { s.mem with k2 := cellSet k v s.mem.k2 } } =
      .next { t with mem := { t.mem with k2 := cellSet k v t.mem.k2 } }) ∧
    (∀ v, s.sLen ≤ k → ∃ t', exec i { s with mem := { s.mem with s := cellSet k v s.mem.s } } = .next t' ∧
      t' = { t with mem := { t.mem with s := t'.mem.s } } ∧
      ∀ j, j < t.sLen → cellGet t'.mem.s j = cellGet t.mem.s j) ∧
    (∀ v, s.shLen ≤ k → ∃ t', exec i { s with mem := { s.mem with sh := cellSet k v s.mem.sh } } = .next t' ∧
      t' = { t with mem := { t.mem with sh := t'.mem.sh } } ∧
      ∀ j, j < t.shLen → cellGet t'.mem.sh j = cellGet t.mem.sh j) ∧
    (∀ v, s.nrk ≤ k → ∃ t', exec i { s with mem := { s.mem with
        rkHi := cellSet k (hiHalf v) s.mem.rkHi, rkLo := cellSet k (loHalf v) s.mem.rkLo } } = .next t' ∧
      t' = { t with mem := { t.mem with rkHi := t'.mem.rkHi, rkLo := t'.mem.rkLo } } ∧
      ∀ j, j < t.nrk → rkCell t'.mem j = rkCell t.mem j)

/-! ## Control and round engine -/

/-- NOP completes without error and without any write but STATUS, which then reads 0x00000002 (45_control.md R220). -/
def Obligations.NopClearsError : Prop :=
  ∀ s : State, ∃ t, exec .nop s = .next t ∧ t = { s with status := completed 0 0x00, pend := none } ∧
    readReg Config.params t .status = .ok 0x00000002#32

/-- XORK r: KeyIndexError when r >= NRK; else X becomes X xor RK[r], and an unwritten RK[r] is the model fault
(41_round_engine.md R125). -/
def Obligations.XorkResult : Prop :=
  ∀ (s : State) (r : Byte),
    (∀ k, r.toNat < s.nrk → rkCell s.mem r.toNat = some k →
      exec (.xork r) s = .next { s with x := s.x ^^^ k, status := completed 0 0x01, pend := none }) ∧
    (s.nrk ≤ r.toNat → exec (.xork r) s = .next { s with status := completed 6 0x01, pend := none }) ∧
    (r.toNat < s.nrk → rkCell s.mem r.toNat = none → exec (.xork r) s = .fault (.unwrittenRead (.rk r.toNat)))

/-- SUB substitutes each of the 16 nibbles of X through SBOX, in place (41_round_engine.md R121, R126). -/
def Obligations.SubSubstitutesNibbles : Prop :=
  ∀ s : State, ∃ t, exec .sub s = .next t ∧
    (∀ j, j < 16 → t.x.extractLsb' (4 * j) 4 = Config.params.sbox (s.x.extractLsb' (4 * j) 4)) ∧
    t = { s with x := t.x, status := completed 0 0x02, pend := none }

/-- ISUB substitutes each nibble of X through the inverse of SBOX, in place (41_round_engine.md R120, R121, R127). -/
def Obligations.IsubInvertsNibbles : Prop :=
  ∀ s : State, ∃ t, exec .isub s = .next t ∧
    (∀ j, j < 16 → Config.params.sbox (t.x.extractLsb' (4 * j) 4) = s.x.extractLsb' (4 * j) 4) ∧
    t = { s with x := t.x, status := completed 0 0x03, pend := none }

/-- PERM moves bit i of X to bit PERM(i) (41_round_engine.md R122, R128). -/
def Obligations.PermMovesBits : Prop :=
  ∀ s : State, ∃ t, exec .perm s = .next t ∧
    (∀ i : Fin 64, t.x.getLsbD (Config.params.perm i).val = s.x.getLsbD i.val) ∧
    t = { s with x := t.x, status := completed 0 0x04, pend := none }

/-- IPERM moves the bit at PERM(i) of X back to bit i (41_round_engine.md R122, R129). -/
def Obligations.IpermMovesBitsBack : Prop :=
  ∀ s : State, ∃ t, exec .iperm s = .next t ∧
    (∀ i : Fin 64, t.x.getLsbD i.val = s.x.getLsbD (Config.params.perm i).val) ∧
    t = { s with x := t.x, status := completed 0 0x05, pend := none }

/-- ENCB with m+1 keys: m rounds of key, S-box and permutation with keys 0 to m-1, then the whitening key m
(41_round_engine.md R123, R130). -/
def Obligations.EncbRunsRounds : Prop :=
  ∀ (s : State) (m : Nat) (key xs : Nat → Block), s.nrk = m + 1 → (∀ j, j ≤ m → rkCell s.mem j = some (key j)) →
    xs 0 = s.x → (∀ r, r < m → xs (r + 1) = perm64 Config.params (sbox64 Config.params (xs r ^^^ key r))) →
    exec .encb s = .next { s with x := xs m ^^^ key m, status := completed 0 0x06, pend := none }

/-- DECB with m+1 keys: the whitening key m is removed, then rounds m-1 down to 0 are undone
(41_round_engine.md R124, R131). -/
def Obligations.DecbUndoesRounds : Prop :=
  ∀ (s : State) (m : Nat) (key xs : Nat → Block), s.nrk = m + 1 → (∀ j, j ≤ m → rkCell s.mem j = some (key j)) →
    xs m = s.x ^^^ key m → (∀ r, r < m → xs r = isbox64 Config.params (iperm64 Config.params (xs (r + 1))) ^^^ key r) →
    exec .decb s = .next { s with x := xs 0, status := completed 0 0x07, pend := none }

/-- KeyIndexError: XORK when r >= NRK, ENCB and DECB when NRK = 0 (60_exceptions.md R259). -/
def Obligations.KeyIndexErrors : Prop :=
  ∀ s : State,
    (∀ r : Byte, s.nrk ≤ r.toNat → exec (.xork r) s = .next { s with status := completed 6 0x01, pend := none }) ∧
    (s.nrk = 0 → exec .encb s = .next { s with status := completed 6 0x06, pend := none }) ∧
    (s.nrk = 0 → exec .decb s = .next { s with status := completed 6 0x07, pend := none })

/-- The inverse laws of the layers and of the block functions, for every S-box, permutation, block and key sequence
(41_round_engine.md R132). -/
def Obligations.BlockInverseLaws : Prop :=
  ∀ (P : Params) (x : Block),
    isbox64 P (sbox64 P x) = x ∧ sbox64 P (isbox64 P x) = x ∧
    iperm64 P (perm64 P x) = x ∧ perm64 P (iperm64 P x) = x ∧
    ∀ rk : List Block, rk ≠ [] → decBlock P (encBlock P x rk) rk = x

/-- The commands of the pseudo-command ROUND r do one iteration of the encryption loop, and those of IROUND r after it
restore X (30_encoding.md R88, 41_round_engine.md R121, R122, R125 to R129; the undoing is the spec's own inference,
R132). STATUS is that of the last command. -/
def Obligations.RoundPseudoCommands : Prop :=
  ∀ (s : State) (r : Byte) (k : Block), r.toNat < s.nrk → rkCell s.mem r.toNat = some k →
    ∃ t u,
      Runs (expandPseudo (.round r)) s t ∧
      t = { s with x := perm64 Config.params (sbox64 Config.params (s.x ^^^ k)), status := completed 0 0x04,
                   pend := none } ∧
      Runs (expandPseudo (.iround r)) t u ∧ u = { s with status := completed 0 0x01, pend := none }

/-! ## Key schedule and stream -/

/-- KEYEXP n derives n+1 keys from the seed K1 ++ K2, replaces RK by them and sets NRK = n+1; an empty key is no error
(40_key_schedule.md R101, R102, R103). Cells of RK beyond n keep their marks. -/
def Obligations.KeyexpDerivesKeys : Prop :=
  ∀ (s : State) (n : Byte) (k1 k2 : List Byte), n.toNat ≤ Config.params.maxRounds → K1Is s k1 → AllDigits k1 →
    K2Is s k2 → AllDigits k2 →
    ∃ t rk, exec (.keyexp n) s = .next t ∧ IsSchedule Config.params (k1 ++ k2) n.toNat rk ∧ RkIs t rk ∧
      (∀ j, n.toNat < j → (cellGet t.mem.rkHi j).isSome = (cellGet s.mem.rkHi j).isSome ∧
        (cellGet t.mem.rkLo j).isSome = (cellGet s.mem.rkLo j).isSome) ∧
      t = { s with nrk := n.toNat + 1, status := completed 0 0x08, pend := none, draws := t.draws,
                   mem := { s.mem with rkHi := t.mem.rkHi, rkLo := t.mem.rkLo } }

/-- Only the concatenation of the keys enters the schedule: key pairs with the same concatenation give the same RK
(40_key_schedule.md R104). -/
def Obligations.SeedCollision : Prop :=
  ∀ (s s' t t' : State) (n : Byte) (k1 k2 k1' k2' : List Byte), n.toNat ≤ Config.params.maxRounds →
    K1Is s k1 → K2Is s k2 → AllDigits k1 → AllDigits k2 → K1Is s' k1' → K2Is s' k2' → AllDigits k1' → AllDigits k2' →
    k1 ++ k2 = k1' ++ k2' → exec (.keyexp n) s = .next t → exec (.keyexp n) s' = .next t' →
    t.nrk = t'.nrk ∧ ∀ j, j < t.nrk → rkCell t.mem j = rkCell t'.mem j ∧ (rkCell t.mem j).isSome

/-- ENCS: 13 keys are derived and kept, block b of the result is EncBlock of block b of S, OLEN is the old length and
S_LEN the whole number of blocks (42_stream.md R160, R161, R163). Cells of RK beyond 12, and of S beyond S_LEN, keep
their marks (10_state.md R33). -/
def Obligations.EncsEncryptsBlocks : Prop :=
  ∀ (s : State) (k1 k2 : List Byte) (bits : Bits), K1Is s k1 → AllDigits k1 → K2Is s k2 → AllDigits k2 → SIs s bits →
    ∃ t rk, exec .encs s = .next t ∧ IsSchedule Config.params (k1 ++ k2) 12 rk ∧ RkIs t rk ∧
      (∀ j, 12 < j → (cellGet t.mem.rkHi j).isSome = (cellGet s.mem.rkHi j).isSome ∧
        (cellGet t.mem.rkLo j).isSome = (cellGet s.mem.rkLo j).isSome) ∧
      (∀ b j, b < (s.sLen + 63) / 64 → j < 64 →
        cellGet t.mem.s (64 * b + j) = some ((encBlock Config.params (blockOf bits b) rk).getLsbD (63 - j))) ∧
      (∀ k, t.sLen ≤ k → (cellGet t.mem.s k).isSome = (cellGet s.mem.s k).isSome) ∧
      t = { s with sLen := 64 * ((s.sLen + 63) / 64), olen := BitVec.ofNat 32 s.sLen, nrk := 13,
                   status := completed 0 0x10, pend := none, draws := t.draws,
                   mem := { s.mem with rkHi := t.mem.rkHi, rkLo := t.mem.rkLo, s := t.mem.s } }

/-- DECS: 13 keys are derived and kept, bit 64b+j of the result is bit 63-j of DecBlock of block b, and only the first
OLEN bits are kept; OLEN is unchanged (42_stream.md R162, R164). Cells of RK beyond 12, and of S beyond S_LEN, keep
their marks (10_state.md R33). -/
def Obligations.DecsDecryptsBlocks : Prop :=
  ∀ (s : State) (k1 k2 : List Byte) (bits : Bits), K1Is s k1 → AllDigits k1 → K2Is s k2 → AllDigits k2 → SIs s bits →
    s.sLen % 64 = 0 → s.olen.toNat ≤ s.sLen →
    ∃ t rk, exec .decs s = .next t ∧ IsSchedule Config.params (k1 ++ k2) 12 rk ∧ RkIs t rk ∧
      (∀ j, 12 < j → (cellGet t.mem.rkHi j).isSome = (cellGet s.mem.rkHi j).isSome ∧
        (cellGet t.mem.rkLo j).isSome = (cellGet s.mem.rkLo j).isSome) ∧
      (∀ b j, j < 64 → 64 * b + j < s.olen.toNat →
        cellGet t.mem.s (64 * b + j) = some ((decBlock Config.params (blockOf bits b) rk).getLsbD (63 - j))) ∧
      (∀ k, t.sLen ≤ k → (cellGet t.mem.s k).isSome = (cellGet s.mem.s k).isSome) ∧
      t = { s with sLen := s.olen.toNat, nrk := 13, status := completed 0 0x11, pend := none, draws := t.draws,
                   mem := { s.mem with rkHi := t.mem.rkHi, rkLo := t.mem.rkLo, s := t.mem.s } }

/-- ENCS followed by DECS restores S and S_LEN (42_stream.md R165). The lengths are bounded as a 32-bit OLEN needs; in
every reachable state S_LEN is at most MAX_BITS. -/
def Obligations.StreamRoundTrip : Prop :=
  ∀ (s : State) (k1 k2 : List Byte) (bits : Bits), K1Is s k1 → AllDigits k1 → K2Is s k2 → AllDigits k2 → SIs s bits →
    s.sLen ≤ Config.params.maxBits →
    ∃ t u, exec .encs s = .next t ∧ exec .decs t = .next u ∧ SIs u bits

/-- A block of ENCS's output depends only on the same block of the input and on the keys, whatever the lengths of the
strings and their other blocks (42_stream.md R166, the spec's own inference). -/
def Obligations.BlocksAreIndependent : Prop :=
  ∀ (s s' t t' : State) (k1 k2 : List Byte) (bits bits' : Bits) (b : Nat), K1Is s k1 → K2Is s k2 → AllDigits k1 →
    AllDigits k2 → K1Is s' k1 → K2Is s' k2 → SIs s bits → SIs s' bits' → 64 * b < s.sLen →
    64 * b < s'.sLen → blockOf bits b = blockOf bits' b → exec .encs s = .next t → exec .encs s' = .next t' →
    ∀ j, j < 64 → cellGet t.mem.s (64 * b + j) = cellGet t'.mem.s (64 * b + j) ∧
      (cellGet t.mem.s (64 * b + j)).isSome

/-- The block view: bit 63-j of block b is bit 64b+j of the string, or 0 beyond its end, and BitsOf lists the bits of a
value most significant first (20_memory.md R69). -/
def Obligations.BlockViewOfBitString : Prop :=
  (∀ (s : Bits) (b j : Nat), j < 64 → (blockOf s b).getLsbD (63 - j) = (s[64 * b + j]?).getD false) ∧
  (∀ (v : Block), (bitsOf v).length = 64 ∧ ∀ j, j < 64 → (bitsOf v)[j]? = some (v.getLsbD (63 - j))) ∧
  (∀ v : Block, blockOf (bitsOf v) 0 = v)

/-! ## Pad and rotate -/

/-- PAD1: bit i of S goes to position i plus the digits before it, every other position below the new length is zero
(43_pad.md R180, R182, R185). -/
def Obligations.Pad1InsertsZeros : Prop :=
  ∀ (s : State) (k : List Byte) (bits : Bits), K1Is s k → AllDigits k → k ≠ [] → SIs s bits →
    padPos k s.sLen ≤ Config.params.maxBits →
    ∃ t, exec .pad1 s = .next t ∧
      (∀ i, i < s.sLen → cellGet t.mem.s (padPos k i) = bits[i]?) ∧
      (∀ p, p < t.sLen → (∀ i, i < s.sLen → padPos k i ≠ p) → cellGet t.mem.s p = some false) ∧
      (∀ j, t.sLen ≤ j → (cellGet t.mem.s j).isSome = (cellGet s.mem.s j).isSome) ∧
      t = { s with sLen := padPos k s.sLen, status := completed 0 0x20, pend := none, draws := t.draws,
                   mem := { s.mem with s := t.mem.s } }

/-- CapacityOverflow: PAD1 when the padded string would be longer than MAX_BITS (60_exceptions.md R258). -/
def Obligations.Pad1Overflow : Prop :=
  ∀ (s : State) (k : List Byte) (bits : Bits), K1Is s k → AllDigits k → k ≠ [] → SIs s bits →
    Config.params.maxBits < padPos k s.sLen →
    exec .pad1 s = .next { s with status := completed 5 0x20, pend := none }

/-- UNPAD1 on a string of complete groups keeps the first bit of each group. The padding bits may be anything, written
or not, since they are skipped without being read (43_pad.md R181, R183). -/
def Obligations.Unpad1KeepsRealBits : Prop :=
  ∀ (s : State) (k : List Byte) (u : Bits), K1Is s k → AllDigits k → k ≠ [] → s.sLen = padPos k u.length →
    (∀ i, i < u.length → cellGet s.mem.s (padPos k i) = u[i]?) →
    ∃ t, exec .unpad1 s = .next t ∧ SIs t u ∧
      (∀ j, t.sLen ≤ j → (cellGet t.mem.s j).isSome = (cellGet s.mem.s j).isSome) ∧
      t = { s with sLen := u.length, status := completed 0 0x21, pend := none, draws := t.draws,
                   mem := { s.mem with s := t.mem.s } }

/-- PAD1 followed by UNPAD1 restores S and S_LEN when PAD1 does not overflow (43_pad.md R184). -/
def Obligations.PadRoundTrip : Prop :=
  ∀ (s : State) (k : List Byte) (bits : Bits), K1Is s k → AllDigits k → k ≠ [] → SIs s bits →
    padPos k s.sLen ≤ Config.params.maxBits →
    ∃ t u, exec .pad1 s = .next t ∧ exec .unpad1 t = .next u ∧ SIs u bits

/-- ROT: one left rotation for each key digit, by (digit * position) mod S_LEN, each recorded in SH; an empty string
is not rotated and records nothing (44_rotate.md R201, R203, R205). -/
def Obligations.RotRotates : Prop :=
  ∀ (s : State) (k : List Byte) (bits : Bits) (cur : Nat → Bits), K2Is s k → AllDigits k → k ≠ [] → SIs s bits →
    cur 0 = bits →
    (∀ j, j < k.length →
      cur (j + 1) = (cur j).drop (rotShift k s.sLen j) ++ (cur j).take (rotShift k s.sLen j)) →
    ∃ t, exec .rot s = .next t ∧
      (0 < s.sLen → SIs t (cur k.length) ∧
        ShIs t ((List.range k.length).map fun j => BitVec.ofNat 32 (rotShift k s.sLen j))) ∧
      (s.sLen = 0 → SIs t [] ∧ ShIs t []) ∧
      (∀ j, t.sLen ≤ j → (cellGet t.mem.s j).isSome = (cellGet s.mem.s j).isSome) ∧
      (∀ j, t.shLen ≤ j → (cellGet t.mem.sh j).isSome = (cellGet s.mem.sh j).isSome) ∧
      t = { s with shLen := t.shLen, status := completed 0 0x22, pend := none, draws := t.draws,
                   mem := { s.mem with s := t.mem.s, sh := t.mem.sh } }

/-- UNROT: the recorded shifts are undone by right rotations, last first; SH is unchanged, and K2 counts only by its
validity and length (44_rotate.md R202, R204). -/
def Obligations.UnrotUndoesShifts : Prop :=
  ∀ (s : State) (k : List Byte) (sh : List Word) (bits : Bits) (cur : Nat → Bits), K2Is s k → AllDigits k → k ≠ [] →
    ShIs s sh → SIs s bits → s.shLen = (if 0 < s.sLen then s.k2Len else 0) → (∀ v ∈ sh, v.toNat < s.sLen) →
    cur sh.length = bits →
    (∀ j (h : j < sh.length),
      cur j = (cur (j + 1)).drop (s.sLen - sh[j].toNat) ++ (cur (j + 1)).take (s.sLen - sh[j].toNat)) →
    ∃ t, exec .unrot s = .next t ∧ SIs t (cur 0) ∧
      (∀ j, t.sLen ≤ j → (cellGet t.mem.s j).isSome = (cellGet s.mem.s j).isSome) ∧
      t = { s with status := completed 0 0x23, pend := none, draws := t.draws, mem := { s.mem with s := t.mem.s } }

/-- ROT followed by UNROT restores S (44_rotate.md R206). -/
def Obligations.RotateRoundTrip : Prop :=
  ∀ (s : State) (k : List Byte) (bits : Bits), K2Is s k → AllDigits k → k ≠ [] → SIs s bits →
    s.sLen ≤ Config.params.maxBits →
    ∃ t u, exec .rot s = .next t ∧ exec .unrot t = .next u ∧ SIs u bits

/-! ## Errors -/

/-- InvalidKeyFormat: a non-digit in a key a command reads, K1 before K2, or an empty key where a digit is required
(40_key_schedule.md R100, 60_exceptions.md R254). -/
def Obligations.InvalidKeyFormatRaised : Prop :=
  ∀ (s : State) (n : Byte) (k1 k2 : List Byte), n.toNat ≤ Config.params.maxRounds →
    (K1Is s k1 → ¬ AllDigits k1 ∨ (AllDigits k1 ∧ K2Is s k2 ∧ ¬ AllDigits k2) →
      exec (.keyexp n) s = .next { s with status := completed 1 0x08, pend := none } ∧
      exec .encs s = .next { s with status := completed 1 0x10, pend := none } ∧
      exec .decs s = .next { s with status := completed 1 0x11, pend := none }) ∧
    (K1Is s k1 → ¬ AllDigits k1 ∨ s.k1Len = 0 →
      exec .pad1 s = .next { s with status := completed 1 0x20, pend := none } ∧
      exec .unpad1 s = .next { s with status := completed 1 0x21, pend := none }) ∧
    (K2Is s k2 → ¬ AllDigits k2 ∨ s.k2Len = 0 →
      exec .rot s = .next { s with status := completed 1 0x22, pend := none } ∧
      exec .unrot s = .next { s with status := completed 1 0x23, pend := none })

/-- FormatError: DECS on a length that is no multiple of 64, whatever OLEN is; UNPAD1 on an incomplete last group
(60_exceptions.md R253, R255). -/
def Obligations.FormatErrorRaised : Prop :=
  ∀ (s : State) (k1 k2 : List Byte), K1Is s k1 → AllDigits k1 →
    (K2Is s k2 → AllDigits k2 → s.sLen % 64 ≠ 0 →
      exec .decs s = .next { s with status := completed 2 0x11, pend := none }) ∧
    (∀ m, k1 ≠ [] → padPos k1 m < s.sLen → s.sLen < padPos k1 (m + 1) →
      (∀ i, i < m → (cellGet s.mem.s (padPos k1 i)).isSome) →
      exec .unpad1 s = .next { s with status := completed 2 0x21, pend := none })

/-- LengthMismatch: DECS when OLEN > S_LEN; UNROT when SH_LEN is not K2_LEN, or not 0 for an empty S, or when an entry
of SH is at least S_LEN (60_exceptions.md R256). The entries are compared with S_LEN alone, not with K2. -/
def Obligations.LengthMismatchRaised : Prop :=
  ∀ (s : State) (k1 k2 : List Byte), K2Is s k2 → AllDigits k2 →
    (K1Is s k1 → AllDigits k1 → s.sLen % 64 = 0 → s.sLen < s.olen.toNat →
      exec .decs s = .next { s with status := completed 3 0x11, pend := none }) ∧
    (k2 ≠ [] → s.shLen ≠ (if 0 < s.sLen then s.k2Len else 0) →
      exec .unrot s = .next { s with status := completed 3 0x23, pend := none }) ∧
    (∀ sh, k2 ≠ [] → s.shLen = (if 0 < s.sLen then s.k2Len else 0) → ShIs s sh → (∃ v ∈ sh, s.sLen ≤ v.toNat) →
      exec .unrot s = .next { s with status := completed 3 0x23, pend := none })

/-! ## The host interface -/

/-- CMD: a word written while idle becomes PEND, sets BUSY, clears DONE and changes nothing else of the core; a write
while busy is a protocol violation; a read answers 0 and has no effect (20_memory.md R54). -/
def Obligations.CommandWordAccepted : Prop :=
  ∀ (s : State) (w : Word),
    (Idle s → HostNext s (.write 0x00000 4 w) →
      ∃ l, step s = .next { s with pend := some w, status := { s.status with busy := true, done := false },
                                   latency := l, draws := s.draws + 1, hostIndex := s.hostIndex + 1 }) ∧
    (∀ v, Waiting s v → HostNext s (.write 0x00000 4 w) → step s = .fault (.protocol 0x00000)) ∧
    (Idle s → HostNext s (.read 0x00000 4) →
      step s = .next { s with hostReads := (0x00000, 0#32) :: s.hostReads, draws := s.draws + 1,
                              hostIndex := s.hostIndex + 1 })

/-- A host read, whatever it answers, changes no state of the core (20_memory.md R71). -/
def Obligations.ReadsHaveNoSideEffect : Prop :=
  ∀ (s t : State) (a : Addr) (bytes : Nat), s.pend = none ∨ 0 < s.latency → HostNext s (.read a bytes) →
    step s = .next t →
    t = { s with hostReads := t.hostReads, draws := t.draws, hostIndex := s.hostIndex + 1, latency := s.latency - 1 }

/-- A STATUS read answers BUSY in bit 0, DONE in bit 1, ERR in 7:4, LAST_OPC in 15:8 and 0 in the reserved bits, also
while busy; a STATUS write is ignored (10_state.md R28, 20_memory.md R55). -/
def Obligations.StatusReadAndWrite : Prop :=
  ∀ s : State,
    (s.pend = none ∨ 0 < s.latency → HostNext s (.read 0x00004 4) →
      ∃ v : Word, v.getLsbD 0 = s.status.busy ∧ v.getLsbD 1 = s.status.done ∧ v.extractLsb' 2 2 = 0#2 ∧
        v.extractLsb' 4 4 = s.status.err ∧ v.extractLsb' 8 8 = s.status.lastOpc ∧ v.extractLsb' 16 16 = 0#16 ∧
        step s = .next { s with hostReads := (0x00004, v) :: s.hostReads, draws := s.draws + 1,
                                hostIndex := s.hostIndex + 1, latency := s.latency - 1 }) ∧
    (∀ v, Idle s → HostNext s (.write 0x00004 4 v) → step s = .next { s with hostIndex := s.hostIndex + 1 })

/-- While busy, every access but a STATUS read is the model fault PROTOCOL (70_reset_and_hazards.md R284, R285). -/
def Obligations.BusyAccessFaults : Prop :=
  ∀ (s : State) (w : Word), Waiting s w →
    (∀ a bytes v, HostNext s (.write a bytes v) → step s = .fault (.protocol a)) ∧
    (∀ a bytes, ¬ (a = 0x00004#20 ∧ bytes = 4) → HostNext s (.read a bytes) → step s = .fault (.protocol a))

/-- A misaligned access or one that is not 32 bits wide is refused with its address (20_memory.md R51). -/
def Obligations.BadAccessRefused : Prop :=
  ∀ (s : State) (a : Addr) (bytes : Nat), Idle s → bytes ≠ 4 ∨ a.toNat % 4 ≠ 0 →
    (HostNext s (.read a bytes) → step s = .refused (.busError a)) ∧
    (∀ v, HostNext s (.write a bytes v) → step s = .refused (.busError a))

/-- The addresses of the register map (20_memory.md R53). -/
def Mapped (P : Params) (a : Nat) : Prop :=
  a ≤ 0x00030 ∨ (∃ j, j ≤ P.maxRounds ∧ (a = 0x01000 + 8 * j ∨ a = 0x01004 + 8 * j)) ∨
  (∃ j, j < P.maxKey ∧ (a = 0x02000 + 4 * j ∨ a = 0x03000 + 4 * j ∨ a = 0x04000 + 4 * j)) ∨
  (∃ w, w < P.maxBits / 32 ∧ a = 0x10000 + 4 * w)

/-- An aligned access to an address outside the register map is refused with its address (20_memory.md R52). -/
def Obligations.UnmappedAccessRefused : Prop :=
  ∀ (s : State) (a : Addr), Idle s → a.toNat % 4 = 0 → ¬ Mapped Config.params a.toNat →
    (HostNext s (.read a 4) → step s = .refused (.busError a)) ∧
    (∀ v, HostNext s (.write a 4 v) → step s = .refused (.busError a))

/-- X_HI and X_LO: a read answers its half of X, a write sets its half and leaves the other (20_memory.md R56). -/
def Obligations.BlockRegisterHalves : Prop :=
  ∀ s : State, Idle s →
    (HostNext s (.read 0x00008 4) →
      step s = .next { s with hostReads := (0x00008, s.x.extractLsb' 32 32) :: s.hostReads, draws := s.draws + 1,
                              hostIndex := s.hostIndex + 1 }) ∧
    (HostNext s (.read 0x0000C 4) →
      step s = .next { s with hostReads := (0x0000C, s.x.extractLsb' 0 32) :: s.hostReads, draws := s.draws + 1,
                              hostIndex := s.hostIndex + 1 }) ∧
    (∀ v, HostNext s (.write 0x00008 4 v) →
      ∃ y : Block, y.extractLsb' 32 32 = v ∧ y.extractLsb' 0 32 = s.x.extractLsb' 0 32 ∧
        step s = .next { s with x := y, hostIndex := s.hostIndex + 1 }) ∧
    (∀ v, HostNext s (.write 0x0000C 4 v) →
      ∃ y : Block, y.extractLsb' 0 32 = v ∧ y.extractLsb' 32 32 = s.x.extractLsb' 32 32 ∧
        step s = .next { s with x := y, hostIndex := s.hostIndex + 1 })

/-- The length registers and OLEN: a read answers the value; a write above the legal maximum is ignored and any other
write sets the register, and no write of one changes a cell or its mark; after a write of NRK above an unwritten cell of
RK, ENCB and DECB fault (20_memory.md R57 to R61). A length is below 2^32 in every reachable state. -/
def Obligations.LengthRegisters : Prop :=
  ∀ (s : State), Idle s →
    (∀ (a : Addr) (n : Nat), n < 2 ^ 32 → (a, n) ∈ [(0x00010#20, s.nrk), (0x00014#20, s.olen.toNat),
        (0x00018#20, s.sLen), (0x0001C#20, s.shLen), (0x00020#20, s.k1Len), (0x00024#20, s.k2Len)] →
      HostNext s (.read a 4) → ∃ v : Word, v.toNat = n ∧
        step s = .next { s with hostReads := (a, v) :: s.hostReads, draws := s.draws + 1,
                                hostIndex := s.hostIndex + 1 }) ∧
    (∀ v, HostNext s (.write 0x00010 4 v) → step s = .next { s with
      nrk := if v.toNat ≤ Config.params.maxRounds + 1 then v.toNat else s.nrk, hostIndex := s.hostIndex + 1 }) ∧
    (∀ v j, HostNext s (.write 0x00010 4 v) → v.toNat ≤ Config.params.maxRounds + 1 → j < v.toNat →
      rkCell s.mem j = none →
      ∃ t, step s = .next t ∧ ∀ i ∈ [Instr.encb, .decb], ∃ k, exec i t = .fault (.unwrittenRead (.rk k))) ∧
    (∀ v, HostNext s (.write 0x00014 4 v) → step s = .next { s with olen := v, hostIndex := s.hostIndex + 1 }) ∧
    (∀ v, HostNext s (.write 0x00018 4 v) → step s = .next { s with
      sLen := if v.toNat ≤ Config.params.maxBits then v.toNat else s.sLen, hostIndex := s.hostIndex + 1 }) ∧
    (∀ v, HostNext s (.write 0x0001C 4 v) → step s = .next { s with
      shLen := if v.toNat ≤ Config.params.maxKey then v.toNat else s.shLen, hostIndex := s.hostIndex + 1 }) ∧
    (∀ v, HostNext s (.write 0x00020 4 v) → step s = .next { s with
      k1Len := if v.toNat ≤ Config.params.maxKey then v.toNat else s.k1Len, hostIndex := s.hostIndex + 1 }) ∧
    (∀ v, HostNext s (.write 0x00024 4 v) → step s = .next { s with
      k2Len := if v.toNat ≤ Config.params.maxKey then v.toNat else s.k2Len, hostIndex := s.hostIndex + 1 })

/-- The CAP registers read as the parameters and ignore writes (10_state.md R29, 20_memory.md R62). -/
def Obligations.CapRegisters : Prop :=
  ∀ (s : State) (a : Addr) (n : Nat), Idle s →
    (a, n) ∈ [(0x00028#20, Config.params.maxBits), (0x0002C#20, Config.params.maxKey),
      (0x00030#20, Config.params.maxRounds)] →
    (HostNext s (.read a 4) → ∃ v : Word, v.toNat = n ∧
      step s = .next { s with hostReads := (a, v) :: s.hostReads, draws := s.draws + 1,
                              hostIndex := s.hostIndex + 1 }) ∧
    (∀ v, HostNext s (.write a 4 v) → step s = .next { s with hostIndex := s.hostIndex + 1 })

/-- The RK window: a write sets one half of RK[j] and leaves the other half and every other cell, and RK[j] is written
only once both halves are (20_memory.md R63). -/
def Obligations.RoundKeyWindow : Prop :=
  ∀ (s : State) (j : Nat) (v : Word), Idle s → j ≤ Config.params.maxRounds →
    (HostNext s (.write (BitVec.ofNat 20 (0x01000 + 8 * j)) 4 v) →
      ∃ t, step s = .next t ∧ cellGet t.mem.rkHi j = some v ∧
        (∀ i, i ≠ j → cellGet t.mem.rkHi i = cellGet s.mem.rkHi i) ∧
        rkCell t.mem j = (cellGet s.mem.rkLo j).map (v ++ ·) ∧
        t = { s with mem := { s.mem with rkHi := t.mem.rkHi }, hostIndex := s.hostIndex + 1 }) ∧
    (HostNext s (.write (BitVec.ofNat 20 (0x01004 + 8 * j)) 4 v) →
      ∃ t, step s = .next t ∧ cellGet t.mem.rkLo j = some v ∧
        (∀ i, i ≠ j → cellGet t.mem.rkLo i = cellGet s.mem.rkLo i) ∧
        rkCell t.mem j = (cellGet s.mem.rkHi j).map (· ++ v) ∧
        t = { s with mem := { s.mem with rkLo := t.mem.rkLo }, hostIndex := s.hostIndex + 1 })

/-- The K1_CH, K2_CH and SH_W windows: a write sets its one cell, of a key only from bits 7:0, and no other
(20_memory.md R64, R65). -/
def Obligations.KeyAndShiftWindows : Prop :=
  ∀ (s : State) (j : Nat) (v : Word), Idle s → j < Config.params.maxKey →
    (HostNext s (.write (BitVec.ofNat 20 (0x02000 + 4 * j)) 4 v) →
      ∃ t, step s = .next t ∧ cellGet t.mem.k1 j = some (v.extractLsb' 0 8) ∧
        (∀ i, i ≠ j → cellGet t.mem.k1 i = cellGet s.mem.k1 i) ∧
        t = { s with mem := { s.mem with k1 := t.mem.k1 }, hostIndex := s.hostIndex + 1 }) ∧
    (HostNext s (.write (BitVec.ofNat 20 (0x03000 + 4 * j)) 4 v) →
      ∃ t, step s = .next t ∧ cellGet t.mem.k2 j = some (v.extractLsb' 0 8) ∧
        (∀ i, i ≠ j → cellGet t.mem.k2 i = cellGet s.mem.k2 i) ∧
        t = { s with mem := { s.mem with k2 := t.mem.k2 }, hostIndex := s.hostIndex + 1 }) ∧
    (HostNext s (.write (BitVec.ofNat 20 (0x04000 + 4 * j)) 4 v) →
      ∃ t, step s = .next t ∧ cellGet t.mem.sh j = some v ∧
        (∀ i, i ≠ j → cellGet t.mem.sh i = cellGet s.mem.sh i) ∧
        t = { s with mem := { s.mem with sh := t.mem.sh }, hostIndex := s.hostIndex + 1 })

/-- The S window: a write of word w sets S[32w + k] from word bit 31-k, marks all 32 cells written and changes no other
cell and no length; a read answers the written cells below S_LEN in the same packing (20_memory.md R66). -/
def Obligations.BitStringWindow : Prop :=
  ∀ (s : State) (w : Nat), Idle s → w < Config.params.maxBits / 32 →
    (∀ v : Word, HostNext s (.write (BitVec.ofNat 20 (0x10000 + 4 * w)) 4 v) →
      ∃ t, step s = .next t ∧ (∀ k, k < 32 → cellGet t.mem.s (32 * w + k) = some (v.getLsbD (31 - k))) ∧
        (∀ i, i < 32 * w ∨ 32 * w + 32 ≤ i → cellGet t.mem.s i = cellGet s.mem.s i) ∧
        t = { s with mem := { s.mem with s := t.mem.s }, hostIndex := s.hostIndex + 1 }) ∧
    (∀ f : Nat → Bool, HostNext s (.read (BitVec.ofNat 20 (0x10000 + 4 * w)) 4) →
      (∀ k, k < 32 → 32 * w + k < s.sLen → cellGet s.mem.s (32 * w + k) = some (f k)) →
      ∃ v : Word, (∀ k, k < 32 → 32 * w + k < s.sLen → v.getLsbD (31 - k) = f k) ∧
        step s = .next { s with hostReads := (BitVec.ofNat 20 (0x10000 + 4 * w), v) :: s.hostReads,
                                draws := s.draws + 1, hostIndex := s.hostIndex + 1 })

/-- A host read of a key cell, a shift or a round key: the written value below the length, the model fault
UNWRITTEN_READ on an unwritten cell below it, and some value, written or not, at or beyond it
(20_memory.md R63, R64, R65, R67, R68). -/
def Obligations.WindowReads : Prop :=
  ∀ (s : State) (j : Nat), Idle s →
    (j < Config.params.maxKey → HostNext s (.read (BitVec.ofNat 20 (0x02000 + 4 * j)) 4) →
      (∀ c, j < s.k1Len → cellGet s.mem.k1 j = some c → step s = .next { s with
        hostReads := (BitVec.ofNat 20 (0x02000 + 4 * j), c.setWidth 32) :: s.hostReads, draws := s.draws + 1,
        hostIndex := s.hostIndex + 1 }) ∧
      (j < s.k1Len → cellGet s.mem.k1 j = none → step s = .fault (.unwrittenRead (.k1 j))) ∧
      (s.k1Len ≤ j → ∃ v, step s = .next { s with
        hostReads := (BitVec.ofNat 20 (0x02000 + 4 * j), v) :: s.hostReads, draws := s.draws + 1,
        hostIndex := s.hostIndex + 1 })) ∧
    (j < Config.params.maxKey → HostNext s (.read (BitVec.ofNat 20 (0x03000 + 4 * j)) 4) →
      (∀ c, j < s.k2Len → cellGet s.mem.k2 j = some c → step s = .next { s with
        hostReads := (BitVec.ofNat 20 (0x03000 + 4 * j), c.setWidth 32) :: s.hostReads, draws := s.draws + 1,
        hostIndex := s.hostIndex + 1 }) ∧
      (j < s.k2Len → cellGet s.mem.k2 j = none → step s = .fault (.unwrittenRead (.k2 j))) ∧
      (s.k2Len ≤ j → ∃ v, step s = .next { s with
        hostReads := (BitVec.ofNat 20 (0x03000 + 4 * j), v) :: s.hostReads, draws := s.draws + 1,
        hostIndex := s.hostIndex + 1 })) ∧
    (j < Config.params.maxKey → HostNext s (.read (BitVec.ofNat 20 (0x04000 + 4 * j)) 4) →
      (∀ c, j < s.shLen → cellGet s.mem.sh j = some c → step s = .next { s with
        hostReads := (BitVec.ofNat 20 (0x04000 + 4 * j), c) :: s.hostReads, draws := s.draws + 1,
        hostIndex := s.hostIndex + 1 }) ∧
      (j < s.shLen → cellGet s.mem.sh j = none → step s = .fault (.unwrittenRead (.sh j))) ∧
      (s.shLen ≤ j → ∃ v, step s = .next { s with
        hostReads := (BitVec.ofNat 20 (0x04000 + 4 * j), v) :: s.hostReads, draws := s.draws + 1,
        hostIndex := s.hostIndex + 1 })) ∧
    (j ≤ Config.params.maxRounds → HostNext s (.read (BitVec.ofNat 20 (0x01000 + 8 * j)) 4) →
      (∀ k, j < s.nrk → rkCell s.mem j = some k → step s = .next { s with
        hostReads := (BitVec.ofNat 20 (0x01000 + 8 * j), k.extractLsb' 32 32) :: s.hostReads, draws := s.draws + 1,
        hostIndex := s.hostIndex + 1 }) ∧
      (j < s.nrk → rkCell s.mem j = none → step s = .fault (.unwrittenRead (.rk j))) ∧
      (s.nrk ≤ j → ∃ v, step s = .next { s with
        hostReads := (BitVec.ofNat 20 (0x01000 + 8 * j), v) :: s.hostReads, draws := s.draws + 1,
        hostIndex := s.hostIndex + 1 })) ∧
    (j ≤ Config.params.maxRounds → HostNext s (.read (BitVec.ofNat 20 (0x01004 + 8 * j)) 4) →
      (∀ k, j < s.nrk → rkCell s.mem j = some k → step s = .next { s with
        hostReads := (BitVec.ofNat 20 (0x01004 + 8 * j), k.extractLsb' 0 32) :: s.hostReads, draws := s.draws + 1,
        hostIndex := s.hostIndex + 1 }) ∧
      (j < s.nrk → rkCell s.mem j = none → step s = .fault (.unwrittenRead (.rk j))) ∧
      (s.nrk ≤ j → ∃ v, step s = .next { s with
        hostReads := (BitVec.ofNat 20 (0x01004 + 8 * j), v) :: s.hostReads, draws := s.draws + 1,
        hostIndex := s.hostIndex + 1 }))

/-- A host read of a word of S with an unwritten cell below S_LEN is the model fault UNWRITTEN_READ; the fault names the
first such cell (20_memory.md R68, 60_exceptions.md R263; that it is the first is log 5). -/
def Obligations.UnwrittenBitsFault : Prop :=
  ∀ (s : State) (w k : Nat), Idle s → w < Config.params.maxBits / 32 →
    HostNext s (.read (BitVec.ofNat 20 (0x10000 + 4 * w)) 4) → k < 32 → 32 * w + k < s.sLen →
    cellGet s.mem.s (32 * w + k) = none → (∀ i, i < k → (cellGet s.mem.s (32 * w + i)).isSome) →
    step s = .fault (.unwrittenRead (.s (32 * w + k)))

/-- A command that reads an unwritten cell inside a length is the model fault UNWRITTEN_READ, which names the first such
cell the command reads (20_memory.md R68, 45_control.md R222). That operands are read whole, in the order of the
pseudocode, K1 first, is the model's choice (log 5), that UNPAD1 reads only the bits it keeps is log 9, and that DECS
reads all of S below S_LEN, also at and beyond OLEN, is log 16. -/
def Obligations.CommandsFaultOnUnwrittenCells : Prop :=
  ∀ (s : State) (n : Byte) (j : Nat) (k1 k2 : List Byte), n.toNat ≤ Config.params.maxRounds →
    (j < s.nrk → rkCell s.mem j = none → (∀ i, i < j → (rkCell s.mem i).isSome) →
      ∀ i ∈ [Instr.encb, .decb], exec i s = .fault (.unwrittenRead (.rk j))) ∧
    (j < s.k1Len → cellGet s.mem.k1 j = none → (∀ i, i < j → (cellGet s.mem.k1 i).isSome) →
      ∀ i ∈ [Instr.keyexp n, .encs, .decs, .pad1, .unpad1], exec i s = .fault (.unwrittenRead (.k1 j))) ∧
    (j < s.k2Len → cellGet s.mem.k2 j = none → (∀ i, i < j → (cellGet s.mem.k2 i).isSome) →
      (∀ i ∈ [Instr.rot, .unrot], exec i s = .fault (.unwrittenRead (.k2 j))) ∧
      (K1Is s k1 → AllDigits k1 →
        ∀ i ∈ [Instr.keyexp n, .encs, .decs], exec i s = .fault (.unwrittenRead (.k2 j)))) ∧
    (j < s.sLen → cellGet s.mem.s j = none → (∀ i, i < j → (cellGet s.mem.s i).isSome) →
      (K1Is s k1 → AllDigits k1 → K2Is s k2 → AllDigits k2 →
        exec .encs s = .fault (.unwrittenRead (.s j)) ∧
        (s.sLen % 64 = 0 → s.olen.toNat ≤ s.sLen → exec .decs s = .fault (.unwrittenRead (.s j)))) ∧
      (K1Is s k1 → AllDigits k1 → k1 ≠ [] → exec .pad1 s = .fault (.unwrittenRead (.s j))) ∧
      (K2Is s k2 → AllDigits k2 → k2 ≠ [] → exec .rot s = .fault (.unwrittenRead (.s j)) ∧
        ∀ sh, s.shLen = s.k2Len → ShIs s sh → (∀ v ∈ sh, v.toNat < s.sLen) →
          exec .unrot s = .fault (.unwrittenRead (.s j)))) ∧
    (0 < s.sLen → s.shLen = s.k2Len → K2Is s k2 → AllDigits k2 → k2 ≠ [] → j < s.shLen → cellGet s.mem.sh j = none →
      (∀ i, i < j → (cellGet s.mem.sh i).isSome) → exec .unrot s = .fault (.unwrittenRead (.sh j))) ∧
    (K1Is s k1 → AllDigits k1 → k1 ≠ [] → padPos k1 (j + 1) ≤ s.sLen → cellGet s.mem.s (padPos k1 j) = none →
      (∀ i, i < j → (cellGet s.mem.s (padPos k1 i)).isSome) →
      exec .unpad1 s = .fault (.unwrittenRead (.s (padPos k1 j))))

/-! ## Reset, liveness and the invariant -/

/-- What every register and cell is in the reset state (70_reset_and_hazards.md R280). -/
def IsReset (t : State) : Prop :=
  t.x = 0 ∧ t.nrk = 0 ∧ t.olen = 0 ∧ t.sLen = 0 ∧ t.shLen = 0 ∧ t.k1Len = 0 ∧ t.k2Len = 0 ∧
    readReg Config.params t .status = .ok 0x00000000#32 ∧ t.pend = none ∧
    ∀ j, rkCell t.mem j = none ∧ cellGet t.mem.rkHi j = none ∧ cellGet t.mem.rkLo j = none ∧
      cellGet t.mem.k1 j = none ∧ cellGet t.mem.k2 j = none ∧ cellGet t.mem.s j = none ∧ cellGet t.mem.sh j = none

/-- RST: whatever the core is doing, its registers become 0, every cell unwritten and nothing pending; the core then
accepts a command word (70_reset_and_hazards.md R280, R282). The machine starts in that state. -/
def Obligations.ResetInput : Prop :=
  IsReset State.reset ∧
  ∀ s : State, s.pend = none ∨ 0 < s.latency → HostNext s .rst →
    ∃ t, step s = .next t ∧ IsReset t ∧
      ∀ w, HostNext t (.write 0x00000 4 w) → ∃ u, step t = .next u ∧ u.pend = some w

/-- Every pending word, legal or not, reaches its completion step: while the host only reads STATUS, by reads, a poll
or nothing more, BUSY stays 1 for the finite latency. That step is the command of the word, or completes an illegal word
as IllegalCommand; it clears PEND and BUSY and sets DONE, unless it is the model fault UNWRITTEN_READ
(30_encoding.md R85, 45_control.md R222, 70_reset_and_hazards.md R286). That the latency counts steps of the host is
log 3. -/
def Obligations.PendingWordReachesCompletion : Prop :=
  ∀ (s : State) (w : Word) (n : Nat), s.pend = some w → s.status.busy = true →
    (∀ k, k < n → s.hostProgram[s.hostIndex + k]? = some (.read 0x00004 4)) →
    s.latency ≤ n ∨ s.hostProgram[s.hostIndex + n]? = some .poll ∨ s.hostProgram[s.hostIndex + n]? = none →
    ∃ t, Sys2Proof.core.run s.latency s = .next t ∧
      t = { s with latency := 0, draws := t.draws, hostReads := t.hostReads,
                   hostIndex := s.hostIndex + min n s.latency } ∧
      (∀ i, decode Config.params w = .ok i → step t = exec i t) ∧
      (IllegalWord Config.params w →
        step t = .next { t with status := completed 4 (w.extractLsb' 24 8), pend := none }) ∧
      ((∃ u, step t = .next u ∧ u.pend = none ∧ u.status.busy = false ∧ u.status.done = true) ∨
        ∃ c, step t = .fault (.unwrittenRead c))

/-- The invariant holds after reset (70_reset_and_hazards.md R280). -/
def Obligations.ResetSatisfiesInvariant : Prop := Inv Config.params State.reset

/-- Every step keeps the invariant: canonical memory within the capacities, legal lengths, BUSY exactly while a command
is pending, legal ERR codes (10_state.md R21 to R30, 20_memory.md R57 to R61, 60_exceptions.md R251, R258). -/
def Obligations.StepKeepsInvariant : Prop :=
  ∀ s t : State, Inv Config.params s → step s = .next t → Inv Config.params t

/-! ## The host's codec -/

/-- Text of codes up to 127 survives TextToBits and BitsToText; a code above 127 and a length that is no multiple of 7
are format errors (47_host_codec.md R231, R232, R234). -/
def Obligations.CodecRoundTrip : Prop :=
  (∀ text : List Nat, (∀ c ∈ text, c ≤ 127) →
    ∃ b, textToBits text = .ok b ∧ b.length = 7 * text.length ∧ bitsToText b = .ok text) ∧
  (∀ text : List Nat, (∃ c ∈ text, 127 < c) → textToBits text = .error .formatError) ∧
  (∀ b : Bits, b.length % 7 ≠ 0 → bitsToText b = .error .formatError)
end

