-- ==== Sys2Proof/Laws/Buffer.lean ====
section
/-! SUPPORT. What the buffer operations do to one cell, and that each keeps the canonical form. -/
namespace Sys2Proof.Machine

variable {α : Type}

@[simp] theorem cellGet_nil (i : Nat) : cellGet ([] : Buffer α) i = none := rfl

theorem cellGet_cons (c : Nat × α) (b : Buffer α) (i : Nat) :
    cellGet (c :: b) i = if c.1 = i then some c.2 else cellGet b i := rfl

/-- A read after a write to the same cell gives the value written. -/
@[simp] theorem cellGet_cellSet_same (i : Nat) (v : α) (b : Buffer α) : cellGet (cellSet i v b) i = some v := by
  induction b with
  | nil => simp [cellSet, cellGet_cons]
  | cons c rest ih =>
    obtain ⟨j, w⟩ := c
    unfold cellSet
    split
    · simp [cellGet_cons]
    · split
      · simp [cellGet_cons]
      · have : j ≠ i := fun h => by omega
        simp [cellGet_cons, this, ih]

/-- A write leaves every other cell alone. -/
theorem cellGet_cellSet_other {i k : Nat} (h : k ≠ i) (v : α) (b : Buffer α) :
    cellGet (cellSet i v b) k = cellGet b k := by
  induction b with
  | nil => simp [cellSet, cellGet_cons, Ne.symm h]
  | cons c rest ih =>
    obtain ⟨j, w⟩ := c
    unfold cellSet
    split
    · simp [cellGet_cons, Ne.symm h]
    · split
      · next hij => simp [cellGet_cons, Ne.symm h, ← hij]
      · simp [cellGet_cons, ih]

theorem cellGet_append (a b : Buffer α) (i : Nat) :
    cellGet (a ++ b) i = (cellGet a i).or (cellGet b i) := by
  induction a with
  | nil => simp
  | cons c rest ih =>
    simp only [List.cons_append, cellGet_cons]
    split
    · rfl
    · exact ih

theorem cellGet_cellsFrom (vs : List α) (i k : Nat) :
    cellGet (cellsFrom i vs) k = if k < i then none else vs[k - i]? := by
  induction vs generalizing i with
  | nil => simp [cellsFrom]
  | cons v vs ih =>
    simp only [cellsFrom, cellGet_cons, ih]
    rcases Nat.lt_trichotomy k i with h | h | h
    · have h1 : i ≠ k := by omega
      have h2 : k < i + 1 := by omega
      simp [h, h1, h2]
    · simp [h]
    · have h1 : i ≠ k := by omega
      have h2 : ¬ k < i + 1 := by omega
      have h3 : ¬ k < i := by omega
      have h4 : k - i = k - (i + 1) + 1 := by omega
      simp [h1, h2, h3, h4]

theorem cellGet_filter_map (free : Nat → α) (n : Nat) (b : Buffer α) (k : Nat) :
    cellGet ((b.filter fun c => n ≤ c.1).map fun c => (c.1, free c.1)) k =
      if n ≤ k then (cellGet b k).map fun _ => free k else none := by
  induction b with
  | nil => simp
  | cons c rest ih =>
    by_cases hc : n ≤ c.1
    · rw [List.filter_cons_of_pos (by simpa using hc), List.map_cons, cellGet_cons, cellGet_cons, ih]
      by_cases hk : c.1 = k
      · subst hk; simp [hc]
      · simp [hk]
    · rw [List.filter_cons_of_neg (by simpa using hc), ih, cellGet_cons]
      by_cases hk : c.1 = k
      · subst hk; simp [hc]
      · simp [hk]

/-- A commit writes the cells below the new length. -/
theorem cellGet_cellCommit_lt (free : Nat → α) {vs : List α} {k : Nat} (b : Buffer α) (h : k < vs.length) :
    cellGet (cellCommit free vs b) k = vs[k]? := by
  simp [cellCommit, cellGet_append, cellGet_cellsFrom, h]

/-- A commit leaves the mark of a cell at or beyond the new length, and frees its value. -/
theorem cellGet_cellCommit_ge (free : Nat → α) {vs : List α} {k : Nat} (b : Buffer α) (h : vs.length ≤ k) :
    cellGet (cellCommit free vs b) k = (cellGet b k).map fun _ => free k := by
  rw [cellCommit, cellGet_append, cellGet_cellsFrom, cellGet_filter_map]
  simp [h]

theorem fst_cellsFrom (vs : List α) (i : Nat) : (cellsFrom i vs).map Prod.fst = List.range' i vs.length := by
  induction vs generalizing i with
  | nil => simp [cellsFrom]
  | cons v vs ih => simp [cellsFrom, ih, List.range'_succ]

theorem mem_cellSet {i : Nat} {v : α} {b : Buffer α} {c : Nat × α} (h : c ∈ cellSet i v b) : c.1 = i ∨ c ∈ b := by
  induction b with
  | nil => simp [cellSet] at h; simp [h]
  | cons d rest ih =>
    obtain ⟨j, w⟩ := d
    unfold cellSet at h
    split at h
    · rcases List.mem_cons.1 h with h | h
      · simp [h]
      · exact .inr h
    · split at h
      · rcases List.mem_cons.1 h with h | h
        · simp [h]
        · exact .inr (List.mem_cons_of_mem _ h)
      · rcases List.mem_cons.1 h with h | h
        · simp [h]
        · rcases ih h with h | h
          · exact .inl h
          · exact .inr (List.mem_cons_of_mem _ h)

theorem mem_cellCommit {free : Nat → α} {vs : List α} {b : Buffer α} {c : Nat × α} (h : c ∈ cellCommit free vs b) :
    c.1 < vs.length ∨ ∃ d ∈ b, d.1 = c.1 := by
  rcases List.mem_append.1 h with h | h
  · have : c.1 ∈ (cellsFrom 0 vs).map Prod.fst := List.mem_map_of_mem h
    rw [fst_cellsFrom] at this
    exact .inl (by simpa using this)
  · obtain ⟨d, hd, rfl⟩ := List.mem_map.1 h
    exact .inr ⟨d, (List.mem_filter.1 hd).1, rfl⟩

/-- Writing a cell keeps the canonical form. -/
theorem rising_cellSet (i : Nat) (v : α) {b : Buffer α} (h : Rising b) : Rising (cellSet i v b) := by
  induction b with
  | nil => simp [Rising, cellSet]
  | cons c rest ih =>
    obtain ⟨j, w⟩ := c
    obtain ⟨hj, hr⟩ := List.pairwise_cons.1 (show List.Pairwise (· < ·) (j :: rest.map Prod.fst) from h)
    unfold cellSet
    split
    · next hij =>
      refine List.pairwise_cons.2 ⟨?_, h⟩
      intro k hk
      rcases List.mem_cons.1 hk with rfl | hk
      · exact hij
      · exact Nat.lt_trans hij (hj k hk)
    · split
      · next hij => subst hij; exact h
      · refine List.pairwise_cons.2 ⟨?_, ih hr⟩
        intro k hk
        obtain ⟨c, hc, rfl⟩ := List.mem_map.1 hk
        rcases mem_cellSet hc with h1 | h1
        · show j < c.1
          omega
        · exact hj _ (List.mem_map_of_mem h1)

/-- A commit keeps the canonical form. -/
theorem rising_cellCommit (free : Nat → α) (vs : List α) {b : Buffer α} (h : Rising b) :
    Rising (cellCommit free vs b) := by
  unfold Rising cellCommit
  rw [List.map_append, fst_cellsFrom, List.map_map]
  refine List.pairwise_append.2 ⟨List.pairwise_lt_range', ?_, ?_⟩
  · have h1 : (b.filter fun c => vs.length ≤ c.1).map (Prod.fst ∘ fun c => (c.1, free c.1)) =
        (b.filter fun c => vs.length ≤ c.1).map Prod.fst := List.map_congr_left fun _ _ => rfl
    rw [h1]
    exact h.sublist (List.filter_sublist.map Prod.fst)
  · intro a ha k hk
    obtain ⟨c, hc, rfl⟩ := List.mem_map.1 hk
    have h1 := (List.mem_filter.1 hc).2
    simp at ha h1
    show a < c.1
    omega

/-- Every cell that reads as written is listed. -/
theorem mem_of_cellGet {b : Buffer α} {i : Nat} {v : α} (h : cellGet b i = some v) : (i, v) ∈ b := by
  induction b with
  | nil => simp at h
  | cons c rest ih =>
    rw [cellGet_cons] at h
    split at h
    · next hc => simp [← hc, ← Option.some.inj h]
    · exact List.mem_cons_of_mem _ (ih h)

end Sys2Proof.Machine
end

