-- ==== Sys2Proof/Laws/Ops.lean ====
section
/-! SUPPORT. What the shared operations can do: reading cells, checks, and the completion of a command. -/
namespace Sys2Proof.Machine

variable {α : Type}

/-- Reading cells answers exactly when every cell is written, and then answers them in order. -/
theorem readCells_eq_ok {get : Nat → Option α} {cell : Nat → CellId} {n i : Nat} {vs : List α} :
    readCells get cell n i = .ok vs ↔ vs.length = n ∧ ∀ j, j < vs.length → get (i + j) = vs[j]? := by
  induction n generalizing i vs with
  | zero =>
    constructor
    · intro h
      have : vs = [] := by simpa [readCells] using h.symm
      simp [this]
    · rintro ⟨h, -⟩
      simp [List.length_eq_zero_iff.1 h, readCells]
  | succ n ih =>
    unfold readCells
    constructor
    · intro h
      split at h
      · cases h
      · next v hv =>
        split at h
        · cases h
        · next ws hws =>
          obtain rfl : v :: ws = vs := by simpa using h
          obtain ⟨h1, h2⟩ := ih.1 hws
          refine ⟨by simp [h1], fun j hj => ?_⟩
          cases j with
          | zero => simpa using hv
          | succ j =>
            have := h2 j (by simpa using hj)
            simpa [Nat.add_assoc, Nat.add_comm 1 j] using this
    · rintro ⟨hl, hg⟩
      cases vs with
      | nil => simp at hl
      | cons v ws =>
        have h0 : get i = some v := by simpa using hg 0 (by simp)
        have hws : readCells get cell n (i + 1) = .ok ws := by
          refine ih.2 ⟨by simpa using hl, fun j hj => ?_⟩
          have := hg (j + 1) (by simpa using hj)
          simpa [Nat.add_assoc, Nat.add_comm 1 j] using this
        simp [h0, hws]

/-- Reading cells stops at the first unwritten one. -/
theorem readCells_eq_error {get : Nat → Option α} {cell : Nat → CellId} {n i : Nat} {c : CellId} :
    readCells get cell n i = .error c ↔
      ∃ j, j < n ∧ get (i + j) = none ∧ c = cell (i + j) ∧ ∀ k, k < j → (get (i + k)).isSome := by
  induction n generalizing i with
  | zero => simp [readCells]
  | succ n ih =>
    unfold readCells
    constructor
    · intro h
      split at h
      · next hv => exact ⟨0, by omega, by simpa using hv, by simpa using h.symm, by omega⟩
      · next v hv =>
        split at h
        · next d hd =>
          obtain rfl : d = c := by simpa using h
          obtain ⟨j, hj, hn, hc, hk⟩ := ih.1 hd
          refine ⟨j + 1, by omega, by simpa [Nat.add_assoc, Nat.add_comm 1 j] using hn, ?_, ?_⟩
          · rw [hc, Nat.add_assoc, Nat.add_comm 1 j]
          · intro k hk'
            cases k with
            | zero => simp [hv]
            | succ k =>
              have := hk k (by omega)
              simpa [Nat.add_assoc, Nat.add_comm 1 k] using this
        · cases h
    · rintro ⟨j, hj, hn, hc, hk⟩
      cases j with
      | zero => simp at hn hc; simp [hn, hc]
      | succ j =>
        have h0 := hk 0 (by omega)
        obtain ⟨v, hv⟩ := Option.isSome_iff_exists.1 h0
        have hr : readCells get cell n (i + 1) = .error c := by
          refine ih.2 ⟨j, by omega, ?_, ?_, fun k hk' => ?_⟩
          · simpa [Nat.add_assoc, Nat.add_comm 1 j] using hn
          · rw [hc, Nat.add_assoc, Nat.add_comm 1 j]
          · have := hk (k + 1) (by omega)
            simpa [Nat.add_assoc, Nat.add_comm 1 k] using this
        rw [show get i = some v by simpa using hv]
        simp [hr]

theorem readCells_eq_ok_iff_holds {get : Nat → Option α} {cell : Nat → CellId} {n : Nat} {vs : List α} :
    readCells get cell n 0 = .ok vs ↔ vs.length = n ∧ Holds get vs := by
  simpa [Holds] using readCells_eq_ok (get := get) (cell := cell) (n := n) (i := 0) (vs := vs)

theorem readK1_eq_ok {s : State} {k : List Byte} : readK1 s = .ok k ↔ K1Is s k := readCells_eq_ok_iff_holds

theorem readK2_eq_ok {s : State} {k : List Byte} : readK2 s = .ok k ↔ K2Is s k := readCells_eq_ok_iff_holds

theorem readS_eq_ok {s : State} {t : Bits} : readS s = .ok t ↔ SIs s t := readCells_eq_ok_iff_holds

theorem readSh_eq_ok {s : State} {sh : List Word} : readSh s = .ok sh ↔ ShIs s sh := readCells_eq_ok_iff_holds

theorem readRk_eq_ok {s : State} {rk : List Block} : readRk s = .ok rk ↔ RkIs s rk := readCells_eq_ok_iff_holds

/-- The cells that hold a value determine it. -/
theorem holds_unique {get : Nat → Option α} {a b : List α} (hl : a.length = b.length) (ha : Holds get a)
    (hb : Holds get b) : a = b :=
  List.ext_getElem? fun j => by
    by_cases h : j < a.length
    · rw [← ha j h, hb j (hl ▸ h)]
    · rw [List.getElem?_eq_none (by omega), List.getElem?_eq_none (by omega)]

@[simp] theorem operand_ok (v : α) : operand (.ok v) = .ok v := rfl

@[simp] theorem operand_error (c : CellId) : operand (α := α) (.error c) = .error (.unwritten c) := rfl

theorem operand_eq_ok {r : Except CellId α} {v : α} : operand r = .ok v ↔ r = .ok v := by
  cases r <;> simp [operand]

theorem operand_eq_error {r : Except CellId α} {e : Stop} :
    operand r = .error e ↔ ∃ c, r = .error c ∧ e = .unwritten c := by
  cases r <;> simp [operand, eq_comm]

@[simp] theorem require_true (e : ErrorKind) : require true e = .ok () := rfl

@[simp] theorem require_false (e : ErrorKind) : require false e = .error (.raise e) := rfl

theorem require_eq_ok {b : Bool} {e : ErrorKind} {u : Unit} : require b e = .ok u ↔ b = true := by
  cases b <;> simp

/-- A step of pseudocode that answers went through. -/
theorem bind_eq_ok {β : Type} {r : Except Stop α} {f : α → Except Stop β} {b : β} :
    (r >>= f) = .ok b ↔ ∃ a, r = .ok a ∧ f a = .ok b := by
  cases r <;> simp [bind, Except.bind]

@[simp] theorem ok_bind {β : Type} (a : α) (f : α → Except Stop β) : (Except.ok a >>= f) = f a := rfl

@[simp] theorem error_bind {β : Type} (e : Stop) (f : α → Except Stop β) :
    ((Except.error e : Except Stop α) >>= f) = .error e := rfl

@[simp] theorem pure_eq_ok (a : α) : (pure a : Except Stop α) = .ok a := rfl

/-- `raise` stops the pseudocode where it stands. -/
theorem bind_eq_raise {β : Type} {r : Except Stop α} {f : α → Except Stop β} {e : Stop} :
    (r >>= f) = .error e ↔ r = .error e ∨ ∃ a, r = .ok a ∧ f a = .error e := by
  cases r <;> simp [bind, Except.bind]

theorem validKey_iff {k : List Byte} : validKey k = true ↔ AllDigits k := by
  simp [validKey, isDigit, AllDigits]

theorem validDigitKey_iff {k : List Byte} : validDigitKey k = true ↔ AllDigits k ∧ k ≠ [] := by
  simp [validDigitKey, validKey_iff]

@[simp] theorem complete_ok (opc : Byte) (s s' : State) : complete opc s (.ok s') = .next (s'.finish 0 opc) := rfl

@[simp] theorem complete_raise (opc : Byte) (s : State) (e : ErrorKind) :
    complete opc s (.error (.raise e)) = .next (s.finish (errCode e) opc) := rfl

@[simp] theorem complete_unwritten (opc : Byte) (s : State) (c : CellId) :
    complete opc s (.error (.unwritten c)) = .fault (.unwrittenRead c) := rfl

/-- Everything a completion that answers a next state can be: a commit, or an error that writes only STATUS. -/
theorem complete_eq_next {opc : Byte} {s t : State} {r : Except Stop State} :
    complete opc s r = .next t ↔
      (∃ s', r = .ok s' ∧ t = s'.finish 0 opc) ∨
        ∃ e, r = .error (.raise e) ∧ t = s.finish (errCode e) opc := by
  rcases r with (e | c) | s' <;> simp [complete, eq_comm]

/-- A completion answers a next state, which is finished, or is the fault UNWRITTEN_READ. -/
theorem complete_cases (opc : Byte) (s : State) (r : Except Stop State) :
    (∃ (code : BitVec 4) (s' : State), complete opc s r = .next (s'.finish code opc)) ∨ ∃ c, complete opc s r = .fault (.unwrittenRead c) := by
  rcases r with (e | c) | s'
  · exact .inl ⟨_, _, rfl⟩
  · exact .inr ⟨_, rfl⟩
  · exact .inl ⟨_, _, rfl⟩

/-- A completion never refuses. -/
theorem complete_ne_refused (opc : Byte) (s : State) (r : Except Stop State) (x : Refusal) :
    complete opc s r ≠ .refused x := by
  rcases r with (e | c) | s' <;> simp [complete]

theorem errCode_legal (e : ErrorKind) : (errCode e).toNat ≤ 6 ∧ errCode e ≠ 0 := by cases e <;> decide

end Sys2Proof.Machine
end

