-- ==== Sys2Proof/Laws/RoundEngine.lean ====
section
/-! SUPPORT. What each layer of the round engine does to one nibble, one bit, one key. -/
namespace Sys2Proof.Machine

theorem getLsbD_nibble (x : Block) (j i : Nat) : (nibble x j).getLsbD i = (decide (i < 4) && x.getLsbD (4 * j + i)) := by
  simp [nibble]

/-- A substitution acts on each nibble by itself. -/
theorem nibble_mapNibbles (f : Nibble → Nibble) (x : Block) {j : Nat} (h : j < 16) :
    nibble (mapNibbles f x) j = f (nibble x j) := by
  apply BitVec.eq_of_getLsbD_eq
  intro i hi
  have h1 : (4 * j + i) / 4 = j := by omega
  have h2 : (4 * j + i) % 4 = i := by omega
  have h3 : 4 * j + i < 64 := by omega
  simp only [getLsbD_nibble, mapNibbles, BitVec.getLsbD_ofFnLE, h1, h2, h3, hi, dite_true, decide_true, Bool.true_and]

/-- A block is its 16 nibbles. -/
theorem block_eq_of_nibbles {x y : Block} (h : ∀ j, j < 16 → nibble x j = nibble y j) : x = y := by
  apply BitVec.eq_of_getLsbD_eq
  intro i hi
  have h1 := congrArg (·.getLsbD (i % 4)) (h (i / 4) (by omega))
  have h2 : 4 * (i / 4) + i % 4 = i := by omega
  have h3 : i % 4 < 4 := by omega
  simpa only [getLsbD_nibble, h2, h3, decide_true, Bool.true_and] using h1

/-- Bit i moves to bit PERM(i). -/
theorem getLsbD_perm64 (P : Params) (x : Block) (i : Fin 64) :
    (perm64 P x).getLsbD (P.perm i).val = x.getLsbD i.val := by
  simp [perm64]

/-- The bit at PERM(i) moves back to bit i. -/
theorem getLsbD_iperm64 (P : Params) (x : Block) (i : Fin 64) :
    (iperm64 P x).getLsbD i.val = x.getLsbD (P.perm i).val := by
  simp [iperm64]

@[simp] theorem encBlock_single (P : Params) (x k : Block) : encBlock P x [k] = x ^^^ k := by simp [encBlock]

theorem encBlock_cons (P : Params) (x k k' : Block) (rk : List Block) :
    encBlock P x (k :: k' :: rk) = encBlock P (encRound P x k) (k' :: rk) := by
  simp [encBlock]

@[simp] theorem decBlock_single (P : Params) (x k : Block) : decBlock P x [k] = x ^^^ k := by simp [decBlock]

theorem decBlock_cons (P : Params) (x k k' : Block) (rk : List Block) :
    decBlock P x (k :: k' :: rk) = decRound P k (decBlock P x (k' :: rk)) := by
  simp [decBlock]

theorem hiHalf_append_loHalf (v : Block) : hiHalf v ++ loHalf v = v := by
  apply BitVec.eq_of_getLsbD_eq
  intro i hi
  simp only [hiHalf, loHalf, BitVec.getLsbD_append, BitVec.getLsbD_extractLsb']
  split
  · next h => simp [h]
  · next h => simp [show i - 32 < 32 by omega, show 32 + (i - 32) = i by omega]

@[simp] theorem hiHalf_append (a b : Word) : hiHalf (a ++ b) = a := by
  apply BitVec.eq_of_getLsbD_eq
  intro i hi
  simp only [hiHalf, BitVec.getLsbD_extractLsb', BitVec.getLsbD_append, hi, decide_true, Bool.true_and]
  simp

@[simp] theorem loHalf_append (a b : Word) : loHalf (a ++ b) = b := by
  apply BitVec.eq_of_getLsbD_eq
  intro i hi
  simp only [loHalf, BitVec.getLsbD_extractLsb', BitVec.getLsbD_append, hi, decide_true, Bool.true_and]
  simp [hi]

end Sys2Proof.Machine
end

