-- ==== Sys2Proof/Laws/State.lean ====
section
/-! SUPPORT. One lemma per field per update of the state, each true by unfolding the update. -/
namespace Sys2Proof.Machine

section commitS

@[simp] theorem commitS_x (t : Bits) (s : State) : (s.commitS t).x = s.x := rfl
@[simp] theorem commitS_nrk (t : Bits) (s : State) : (s.commitS t).nrk = s.nrk := rfl
@[simp] theorem commitS_k1Len (t : Bits) (s : State) : (s.commitS t).k1Len = s.k1Len := rfl
@[simp] theorem commitS_k2Len (t : Bits) (s : State) : (s.commitS t).k2Len = s.k2Len := rfl
@[simp] theorem commitS_sLen (t : Bits) (s : State) : (s.commitS t).sLen = t.length := rfl
@[simp] theorem commitS_shLen (t : Bits) (s : State) : (s.commitS t).shLen = s.shLen := rfl
@[simp] theorem commitS_olen (t : Bits) (s : State) : (s.commitS t).olen = s.olen := rfl
@[simp] theorem commitS_status (t : Bits) (s : State) : (s.commitS t).status = s.status := rfl
@[simp] theorem commitS_pend (t : Bits) (s : State) : (s.commitS t).pend = s.pend := rfl
@[simp] theorem commitS_mem_rkHi (t : Bits) (s : State) :
    (s.commitS t).mem.rkHi = s.mem.rkHi := rfl
@[simp] theorem commitS_mem_rkLo (t : Bits) (s : State) :
    (s.commitS t).mem.rkLo = s.mem.rkLo := rfl
@[simp] theorem commitS_mem_k1 (t : Bits) (s : State) :
    (s.commitS t).mem.k1 = s.mem.k1 := rfl
@[simp] theorem commitS_mem_k2 (t : Bits) (s : State) :
    (s.commitS t).mem.k2 = s.mem.k2 := rfl
@[simp] theorem commitS_mem_s (t : Bits) (s : State) :
    (s.commitS t).mem.s = cellCommit (Config.freeS s.draws) t s.mem.s := rfl
@[simp] theorem commitS_mem_sh (t : Bits) (s : State) :
    (s.commitS t).mem.sh = s.mem.sh := rfl
@[simp] theorem commitS_latency (t : Bits) (s : State) : (s.commitS t).latency = s.latency := rfl
@[simp] theorem commitS_draws (t : Bits) (s : State) : (s.commitS t).draws = s.draws + 1 := rfl
@[simp] theorem commitS_hostProgram (t : Bits) (s : State) : (s.commitS t).hostProgram = s.hostProgram := rfl
@[simp] theorem commitS_hostIndex (t : Bits) (s : State) : (s.commitS t).hostIndex = s.hostIndex := rfl
@[simp] theorem commitS_hostReads (t : Bits) (s : State) : (s.commitS t).hostReads = s.hostReads := rfl

end commitS

section commitRk

@[simp] theorem commitRk_x (rk : List Block) (s : State) : (s.commitRk rk).x = s.x := rfl
@[simp] theorem commitRk_nrk (rk : List Block) (s : State) : (s.commitRk rk).nrk = rk.length := rfl
@[simp] theorem commitRk_k1Len (rk : List Block) (s : State) : (s.commitRk rk).k1Len = s.k1Len := rfl
@[simp] theorem commitRk_k2Len (rk : List Block) (s : State) : (s.commitRk rk).k2Len = s.k2Len := rfl
@[simp] theorem commitRk_sLen (rk : List Block) (s : State) : (s.commitRk rk).sLen = s.sLen := rfl
@[simp] theorem commitRk_shLen (rk : List Block) (s : State) : (s.commitRk rk).shLen = s.shLen := rfl
@[simp] theorem commitRk_olen (rk : List Block) (s : State) : (s.commitRk rk).olen = s.olen := rfl
@[simp] theorem commitRk_status (rk : List Block) (s : State) : (s.commitRk rk).status = s.status := rfl
@[simp] theorem commitRk_pend (rk : List Block) (s : State) : (s.commitRk rk).pend = s.pend := rfl
@[simp] theorem commitRk_mem_rkHi (rk : List Block) (s : State) :
    (s.commitRk rk).mem.rkHi = cellCommit (Config.freeRkHi s.draws) (rk.map hiHalf) s.mem.rkHi := rfl
@[simp] theorem commitRk_mem_rkLo (rk : List Block) (s : State) :
    (s.commitRk rk).mem.rkLo = cellCommit (Config.freeRkLo s.draws) (rk.map loHalf) s.mem.rkLo := rfl
@[simp] theorem commitRk_mem_k1 (rk : List Block) (s : State) :
    (s.commitRk rk).mem.k1 = s.mem.k1 := rfl
@[simp] theorem commitRk_mem_k2 (rk : List Block) (s : State) :
    (s.commitRk rk).mem.k2 = s.mem.k2 := rfl
@[simp] theorem commitRk_mem_s (rk : List Block) (s : State) :
    (s.commitRk rk).mem.s = s.mem.s := rfl
@[simp] theorem commitRk_mem_sh (rk : List Block) (s : State) :
    (s.commitRk rk).mem.sh = s.mem.sh := rfl
@[simp] theorem commitRk_latency (rk : List Block) (s : State) : (s.commitRk rk).latency = s.latency := rfl
@[simp] theorem commitRk_draws (rk : List Block) (s : State) : (s.commitRk rk).draws = s.draws + 1 := rfl
@[simp] theorem commitRk_hostProgram (rk : List Block) (s : State) : (s.commitRk rk).hostProgram = s.hostProgram := rfl
@[simp] theorem commitRk_hostIndex (rk : List Block) (s : State) : (s.commitRk rk).hostIndex = s.hostIndex := rfl
@[simp] theorem commitRk_hostReads (rk : List Block) (s : State) : (s.commitRk rk).hostReads = s.hostReads := rfl

end commitRk

section commitSh

@[simp] theorem commitSh_x (sh : List Word) (s : State) : (s.commitSh sh).x = s.x := rfl
@[simp] theorem commitSh_nrk (sh : List Word) (s : State) : (s.commitSh sh).nrk = s.nrk := rfl
@[simp] theorem commitSh_k1Len (sh : List Word) (s : State) : (s.commitSh sh).k1Len = s.k1Len := rfl
@[simp] theorem commitSh_k2Len (sh : List Word) (s : State) : (s.commitSh sh).k2Len = s.k2Len := rfl
@[simp] theorem commitSh_sLen (sh : List Word) (s : State) : (s.commitSh sh).sLen = s.sLen := rfl
@[simp] theorem commitSh_shLen (sh : List Word) (s : State) : (s.commitSh sh).shLen = sh.length := rfl
@[simp] theorem commitSh_olen (sh : List Word) (s : State) : (s.commitSh sh).olen = s.olen := rfl
@[simp] theorem commitSh_status (sh : List Word) (s : State) : (s.commitSh sh).status = s.status := rfl
@[simp] theorem commitSh_pend (sh : List Word) (s : State) : (s.commitSh sh).pend = s.pend := rfl
@[simp] theorem commitSh_mem_rkHi (sh : List Word) (s : State) :
    (s.commitSh sh).mem.rkHi = s.mem.rkHi := rfl
@[simp] theorem commitSh_mem_rkLo (sh : List Word) (s : State) :
    (s.commitSh sh).mem.rkLo = s.mem.rkLo := rfl
@[simp] theorem commitSh_mem_k1 (sh : List Word) (s : State) :
    (s.commitSh sh).mem.k1 = s.mem.k1 := rfl
@[simp] theorem commitSh_mem_k2 (sh : List Word) (s : State) :
    (s.commitSh sh).mem.k2 = s.mem.k2 := rfl
@[simp] theorem commitSh_mem_s (sh : List Word) (s : State) :
    (s.commitSh sh).mem.s = s.mem.s := rfl
@[simp] theorem commitSh_mem_sh (sh : List Word) (s : State) :
    (s.commitSh sh).mem.sh = cellCommit (Config.freeSh s.draws) sh s.mem.sh := rfl
@[simp] theorem commitSh_latency (sh : List Word) (s : State) : (s.commitSh sh).latency = s.latency := rfl
@[simp] theorem commitSh_draws (sh : List Word) (s : State) : (s.commitSh sh).draws = s.draws + 1 := rfl
@[simp] theorem commitSh_hostProgram (sh : List Word) (s : State) : (s.commitSh sh).hostProgram = s.hostProgram := rfl
@[simp] theorem commitSh_hostIndex (sh : List Word) (s : State) : (s.commitSh sh).hostIndex = s.hostIndex := rfl
@[simp] theorem commitSh_hostReads (sh : List Word) (s : State) : (s.commitSh sh).hostReads = s.hostReads := rfl

end commitSh

section finish

@[simp] theorem finish_x (code : BitVec 4) (opc : Byte) (s : State) : (s.finish code opc).x = s.x := rfl
@[simp] theorem finish_nrk (code : BitVec 4) (opc : Byte) (s : State) : (s.finish code opc).nrk = s.nrk := rfl
@[simp] theorem finish_k1Len (code : BitVec 4) (opc : Byte) (s : State) : (s.finish code opc).k1Len = s.k1Len := rfl
@[simp] theorem finish_k2Len (code : BitVec 4) (opc : Byte) (s : State) : (s.finish code opc).k2Len = s.k2Len := rfl
@[simp] theorem finish_sLen (code : BitVec 4) (opc : Byte) (s : State) : (s.finish code opc).sLen = s.sLen := rfl
@[simp] theorem finish_shLen (code : BitVec 4) (opc : Byte) (s : State) : (s.finish code opc).shLen = s.shLen := rfl
@[simp] theorem finish_olen (code : BitVec 4) (opc : Byte) (s : State) : (s.finish code opc).olen = s.olen := rfl
@[simp] theorem finish_status (code : BitVec 4) (opc : Byte) (s : State) : (s.finish code opc).status = statusDone code opc := rfl
@[simp] theorem finish_pend (code : BitVec 4) (opc : Byte) (s : State) : (s.finish code opc).pend = none := rfl
@[simp] theorem finish_mem (code : BitVec 4) (opc : Byte) (s : State) : (s.finish code opc).mem = s.mem := rfl
@[simp] theorem finish_latency (code : BitVec 4) (opc : Byte) (s : State) : (s.finish code opc).latency = s.latency := rfl
@[simp] theorem finish_draws (code : BitVec 4) (opc : Byte) (s : State) : (s.finish code opc).draws = s.draws := rfl
@[simp] theorem finish_hostProgram (code : BitVec 4) (opc : Byte) (s : State) : (s.finish code opc).hostProgram = s.hostProgram := rfl
@[simp] theorem finish_hostIndex (code : BitVec 4) (opc : Byte) (s : State) : (s.finish code opc).hostIndex = s.hostIndex := rfl
@[simp] theorem finish_hostReads (code : BitVec 4) (opc : Byte) (s : State) : (s.finish code opc).hostReads = s.hostReads := rfl

end finish

section accept

@[simp] theorem accept_x (v : Word) (s : State) : (s.accept v).x = s.x := rfl
@[simp] theorem accept_nrk (v : Word) (s : State) : (s.accept v).nrk = s.nrk := rfl
@[simp] theorem accept_k1Len (v : Word) (s : State) : (s.accept v).k1Len = s.k1Len := rfl
@[simp] theorem accept_k2Len (v : Word) (s : State) : (s.accept v).k2Len = s.k2Len := rfl
@[simp] theorem accept_sLen (v : Word) (s : State) : (s.accept v).sLen = s.sLen := rfl
@[simp] theorem accept_shLen (v : Word) (s : State) : (s.accept v).shLen = s.shLen := rfl
@[simp] theorem accept_olen (v : Word) (s : State) : (s.accept v).olen = s.olen := rfl
@[simp] theorem accept_status (v : Word) (s : State) : (s.accept v).status = statusBusy s.status := rfl
@[simp] theorem accept_pend (v : Word) (s : State) : (s.accept v).pend = some v := rfl
@[simp] theorem accept_mem (v : Word) (s : State) : (s.accept v).mem = s.mem := rfl
@[simp] theorem accept_latency (v : Word) (s : State) : (s.accept v).latency = Config.coreLatency s.draws := rfl
@[simp] theorem accept_draws (v : Word) (s : State) : (s.accept v).draws = s.draws + 1 := rfl
@[simp] theorem accept_hostProgram (v : Word) (s : State) : (s.accept v).hostProgram = s.hostProgram := rfl
@[simp] theorem accept_hostIndex (v : Word) (s : State) : (s.accept v).hostIndex = s.hostIndex := rfl
@[simp] theorem accept_hostReads (v : Word) (s : State) : (s.accept v).hostReads = s.hostReads := rfl

end accept

section advance

@[simp] theorem advance_x (s : State) : s.advance.x = s.x := rfl
@[simp] theorem advance_nrk (s : State) : s.advance.nrk = s.nrk := rfl
@[simp] theorem advance_k1Len (s : State) : s.advance.k1Len = s.k1Len := rfl
@[simp] theorem advance_k2Len (s : State) : s.advance.k2Len = s.k2Len := rfl
@[simp] theorem advance_sLen (s : State) : s.advance.sLen = s.sLen := rfl
@[simp] theorem advance_shLen (s : State) : s.advance.shLen = s.shLen := rfl
@[simp] theorem advance_olen (s : State) : s.advance.olen = s.olen := rfl
@[simp] theorem advance_status (s : State) : s.advance.status = s.status := rfl
@[simp] theorem advance_pend (s : State) : s.advance.pend = s.pend := rfl
@[simp] theorem advance_mem (s : State) : s.advance.mem = s.mem := rfl
@[simp] theorem advance_latency (s : State) : s.advance.latency = s.latency := rfl
@[simp] theorem advance_draws (s : State) : s.advance.draws = s.draws := rfl
@[simp] theorem advance_hostProgram (s : State) : s.advance.hostProgram = s.hostProgram := rfl
@[simp] theorem advance_hostIndex (s : State) : s.advance.hostIndex = s.hostIndex + 1 := rfl
@[simp] theorem advance_hostReads (s : State) : s.advance.hostReads = s.hostReads := rfl

end advance

section record

@[simp] theorem record_x (a : Addr) (v : Word) (s : State) : (s.record a v).x = s.x := rfl
@[simp] theorem record_nrk (a : Addr) (v : Word) (s : State) : (s.record a v).nrk = s.nrk := rfl
@[simp] theorem record_k1Len (a : Addr) (v : Word) (s : State) : (s.record a v).k1Len = s.k1Len := rfl
@[simp] theorem record_k2Len (a : Addr) (v : Word) (s : State) : (s.record a v).k2Len = s.k2Len := rfl
@[simp] theorem record_sLen (a : Addr) (v : Word) (s : State) : (s.record a v).sLen = s.sLen := rfl
@[simp] theorem record_shLen (a : Addr) (v : Word) (s : State) : (s.record a v).shLen = s.shLen := rfl
@[simp] theorem record_olen (a : Addr) (v : Word) (s : State) : (s.record a v).olen = s.olen := rfl
@[simp] theorem record_status (a : Addr) (v : Word) (s : State) : (s.record a v).status = s.status := rfl
@[simp] theorem record_pend (a : Addr) (v : Word) (s : State) : (s.record a v).pend = s.pend := rfl
@[simp] theorem record_mem (a : Addr) (v : Word) (s : State) : (s.record a v).mem = s.mem := rfl
@[simp] theorem record_latency (a : Addr) (v : Word) (s : State) : (s.record a v).latency = s.latency := rfl
@[simp] theorem record_draws (a : Addr) (v : Word) (s : State) : (s.record a v).draws = s.draws + 1 := rfl
@[simp] theorem record_hostProgram (a : Addr) (v : Word) (s : State) : (s.record a v).hostProgram = s.hostProgram := rfl
@[simp] theorem record_hostIndex (a : Addr) (v : Word) (s : State) : (s.record a v).hostIndex = s.hostIndex := rfl
@[simp] theorem record_hostReads (a : Addr) (v : Word) (s : State) : (s.record a v).hostReads = (a, v) :: s.hostReads := rfl

end record

section tick

@[simp] theorem tick_x (s : State) : s.tick.x = s.x := rfl
@[simp] theorem tick_nrk (s : State) : s.tick.nrk = s.nrk := rfl
@[simp] theorem tick_k1Len (s : State) : s.tick.k1Len = s.k1Len := rfl
@[simp] theorem tick_k2Len (s : State) : s.tick.k2Len = s.k2Len := rfl
@[simp] theorem tick_sLen (s : State) : s.tick.sLen = s.sLen := rfl
@[simp] theorem tick_shLen (s : State) : s.tick.shLen = s.shLen := rfl
@[simp] theorem tick_olen (s : State) : s.tick.olen = s.olen := rfl
@[simp] theorem tick_status (s : State) : s.tick.status = s.status := rfl
@[simp] theorem tick_pend (s : State) : s.tick.pend = s.pend := rfl
@[simp] theorem tick_mem (s : State) : s.tick.mem = s.mem := rfl
@[simp] theorem tick_latency (s : State) : s.tick.latency = s.latency - 1 := rfl
@[simp] theorem tick_draws (s : State) : s.tick.draws = s.draws := rfl
@[simp] theorem tick_hostProgram (s : State) : s.tick.hostProgram = s.hostProgram := rfl
@[simp] theorem tick_hostIndex (s : State) : s.tick.hostIndex = s.hostIndex := rfl
@[simp] theorem tick_hostReads (s : State) : s.tick.hostReads = s.hostReads := rfl

end tick

section pending

@[simp] theorem pending_x (w : Word) (s : State) : (s.pending w).x = s.x := rfl
@[simp] theorem pending_nrk (w : Word) (s : State) : (s.pending w).nrk = s.nrk := rfl
@[simp] theorem pending_k1Len (w : Word) (s : State) : (s.pending w).k1Len = s.k1Len := rfl
@[simp] theorem pending_k2Len (w : Word) (s : State) : (s.pending w).k2Len = s.k2Len := rfl
@[simp] theorem pending_sLen (w : Word) (s : State) : (s.pending w).sLen = s.sLen := rfl
@[simp] theorem pending_shLen (w : Word) (s : State) : (s.pending w).shLen = s.shLen := rfl
@[simp] theorem pending_olen (w : Word) (s : State) : (s.pending w).olen = s.olen := rfl
@[simp] theorem pending_status (w : Word) (s : State) : (s.pending w).status = statusBusy s.status := rfl
@[simp] theorem pending_pend (w : Word) (s : State) : (s.pending w).pend = some w := rfl
@[simp] theorem pending_mem (w : Word) (s : State) : (s.pending w).mem = s.mem := rfl
@[simp] theorem pending_latency (w : Word) (s : State) : (s.pending w).latency = 0 := rfl
@[simp] theorem pending_draws (w : Word) (s : State) : (s.pending w).draws = s.draws := rfl
@[simp] theorem pending_hostProgram (w : Word) (s : State) : (s.pending w).hostProgram = s.hostProgram := rfl
@[simp] theorem pending_hostIndex (w : Word) (s : State) : (s.pending w).hostIndex = s.hostIndex := rfl
@[simp] theorem pending_hostReads (w : Word) (s : State) : (s.pending w).hostReads = s.hostReads := rfl

end pending

section rst

@[simp] theorem rst_x (s : State) : s.rst.x = State.reset.x := rfl
@[simp] theorem rst_nrk (s : State) : s.rst.nrk = State.reset.nrk := rfl
@[simp] theorem rst_k1Len (s : State) : s.rst.k1Len = State.reset.k1Len := rfl
@[simp] theorem rst_k2Len (s : State) : s.rst.k2Len = State.reset.k2Len := rfl
@[simp] theorem rst_sLen (s : State) : s.rst.sLen = State.reset.sLen := rfl
@[simp] theorem rst_shLen (s : State) : s.rst.shLen = State.reset.shLen := rfl
@[simp] theorem rst_olen (s : State) : s.rst.olen = State.reset.olen := rfl
@[simp] theorem rst_status (s : State) : s.rst.status = State.reset.status := rfl
@[simp] theorem rst_pend (s : State) : s.rst.pend = State.reset.pend := rfl
@[simp] theorem rst_mem (s : State) : s.rst.mem = State.reset.mem := rfl
@[simp] theorem rst_latency (s : State) : s.rst.latency = State.reset.latency := rfl
@[simp] theorem rst_draws (s : State) : s.rst.draws = s.draws := rfl
@[simp] theorem rst_hostProgram (s : State) : s.rst.hostProgram = s.hostProgram := rfl
@[simp] theorem rst_hostIndex (s : State) : s.rst.hostIndex = s.hostIndex := rfl
@[simp] theorem rst_hostReads (s : State) : s.rst.hostReads = s.hostReads := rfl

end rst

end Sys2Proof.Machine
end

