-- ==== Sys2Proof/Laws/Execute.lean ====
section
/-! SUPPORT. For each command, when its pseudocode commits and what it commits; and every command as one completion. -/
namespace Sys2Proof.Machine

/-- The pseudocode of every command (45_control.md R222, `Execute`). -/
def execute : Instr → State → Except Stop State
  | .nop, s => executeNop s
  | .xork r, s => executeXork r s
  | .sub, s => executeSub Config.params s
  | .isub, s => executeIsub Config.params s
  | .perm, s => executePerm Config.params s
  | .iperm, s => executeIperm Config.params s
  | .encb, s => executeEncb Config.params s
  | .decb, s => executeDecb Config.params s
  | .keyexp n, s => executeKeyexp Config.params n s
  | .encs, s => executeEncs Config.params s
  | .decs, s => executeDecs Config.params s
  | .pad1, s => executePad1 Config.params s
  | .unpad1, s => executeUnpad1 s
  | .rot, s => executeRot s
  | .unrot, s => executeUnrot s

/-- Every command is one completion with its own opcode. -/
theorem exec_eq_complete (i : Instr) (s : State) : exec i s = complete i.opcode s (execute i s) := by
  cases i <;> rfl

/-- Everything a command that answers a next state can be: a commit, or an error that writes only STATUS and PEND. -/
theorem exec_eq_next {i : Instr} {s t : State} :
    exec i s = .next t ↔
      (∃ s', execute i s = .ok s' ∧ t = s'.finish 0 i.opcode) ∨
        ∃ e, execute i s = .error (.raise e) ∧ t = s.finish (errCode e) i.opcode := by
  rw [exec_eq_complete, complete_eq_next]

/-- Every command ends in a finished state or in the fault UNWRITTEN_READ. -/
theorem exec_cases (i : Instr) (s : State) :
    (∃ (code : BitVec 4) (s' : State), exec i s = .next (s'.finish code i.opcode)) ∨ ∃ c, exec i s = .fault (.unwrittenRead c) := by
  rw [exec_eq_complete]
  exact complete_cases _ _ _

theorem readRkAt_eq_ok {s : State} {r : Nat} {k : Block} : readRkAt s r = .ok k ↔ rkCell s.mem r = some k := by
  unfold readRkAt; split <;> simp_all

/-- The seed is read when both keys are written and are digits. -/
theorem readSeed_eq_ok {s : State} {m : List Byte} :
    readSeed s = .ok m ↔
      ∃ k1 k2, K1Is s k1 ∧ AllDigits k1 ∧ K2Is s k2 ∧ AllDigits k2 ∧ m = k1 ++ k2 := by
  simp only [readSeed, bind_eq_ok, operand_eq_ok, readK1_eq_ok, readK2_eq_ok, require_eq_ok, validKey_iff,
    pure_eq_ok, Except.ok.injEq]
  constructor
  · rintro ⟨k1, h1, -, d1, k2, h2, -, d2, rfl⟩
    exact ⟨k1, k2, h1, d1, h2, d2, rfl⟩
  · rintro ⟨k1, k2, h1, d1, h2, d2, rfl⟩
    exact ⟨k1, h1, (), d1, k2, h2, (), d2, rfl⟩

theorem executeXork_eq_ok {r : Byte} {s t : State} :
    executeXork r s = .ok t ↔
      r.toNat < s.nrk ∧ ∃ k, rkCell s.mem r.toNat = some k ∧ t = { s with x := s.x ^^^ k } := by
  simp only [executeXork, bind_eq_ok, require_eq_ok, decide_eq_true_eq, operand_eq_ok, readRkAt_eq_ok, pure_eq_ok,
    Except.ok.injEq]
  constructor
  · rintro ⟨-, h, k, hk, rfl⟩; exact ⟨h, k, hk, rfl⟩
  · rintro ⟨h, k, hk, rfl⟩; exact ⟨(), h, k, hk, rfl⟩

theorem executeEncb_eq_ok {P : Params} {s t : State} :
    executeEncb P s = .ok t ↔
      s.nrk ≠ 0 ∧ ∃ rk, RkIs s rk ∧ t = { s with x := encBlock P s.x rk } := by
  simp only [executeEncb, bind_eq_ok, require_eq_ok, decide_eq_true_eq, operand_eq_ok, readRk_eq_ok, pure_eq_ok,
    Except.ok.injEq]
  constructor
  · rintro ⟨-, h, k, hk, rfl⟩; exact ⟨h, k, hk, rfl⟩
  · rintro ⟨h, k, hk, rfl⟩; exact ⟨(), h, k, hk, rfl⟩

theorem executeDecb_eq_ok {P : Params} {s t : State} :
    executeDecb P s = .ok t ↔
      s.nrk ≠ 0 ∧ ∃ rk, RkIs s rk ∧ t = { s with x := decBlock P s.x rk } := by
  simp only [executeDecb, bind_eq_ok, require_eq_ok, decide_eq_true_eq, operand_eq_ok, readRk_eq_ok, pure_eq_ok,
    Except.ok.injEq]
  constructor
  · rintro ⟨-, h, k, hk, rfl⟩; exact ⟨h, k, hk, rfl⟩
  · rintro ⟨h, k, hk, rfl⟩; exact ⟨(), h, k, hk, rfl⟩

theorem executeKeyexp_eq_ok {P : Params} {n : Byte} {s t : State} :
    executeKeyexp P n s = .ok t ↔
      n.toNat ≤ P.maxRounds ∧ ∃ m, readSeed s = .ok m ∧ t = s.commitRk (expandKey P m n.toNat) := by
  simp only [executeKeyexp, bind_eq_ok, require_eq_ok, decide_eq_true_eq, pure_eq_ok, Except.ok.injEq]
  constructor
  · rintro ⟨-, h, m, hm, rfl⟩; exact ⟨h, m, hm, rfl⟩
  · rintro ⟨h, m, hm, rfl⟩; exact ⟨(), h, m, hm, rfl⟩

theorem executeEncs_eq_ok {P : Params} {s t : State} :
    executeEncs P s = .ok t ↔
      ∃ m bits, readSeed s = .ok m ∧ SIs s bits ∧
        t = ({ (s.commitS (encStream P bits (expandKey P m Config.streamRounds))) with
          olen := BitVec.ofNat 32 s.sLen } : State).commitRk (expandKey P m Config.streamRounds) := by
  simp only [executeEncs, bind_eq_ok, operand_eq_ok, readS_eq_ok, pure_eq_ok, Except.ok.injEq]
  constructor
  · rintro ⟨m, hm, b, hb, rfl⟩; exact ⟨m, b, hm, hb, rfl⟩
  · rintro ⟨m, b, hm, hb, rfl⟩; exact ⟨m, hm, b, hb, rfl⟩

theorem executeDecs_eq_ok {P : Params} {s t : State} :
    executeDecs P s = .ok t ↔
      ∃ m bits, readSeed s = .ok m ∧ s.sLen % 64 = 0 ∧ s.olen.toNat ≤ s.sLen ∧ SIs s bits ∧
        t = (s.commitS (decStream P bits (expandKey P m Config.streamRounds) s.olen.toNat)).commitRk
          (expandKey P m Config.streamRounds) := by
  simp only [executeDecs, bind_eq_ok, require_eq_ok, decide_eq_true_eq, operand_eq_ok, readS_eq_ok, pure_eq_ok,
    Except.ok.injEq]
  constructor
  · rintro ⟨m, hm, -, h1, -, h2, b, hb, rfl⟩; exact ⟨m, b, hm, h1, h2, hb, rfl⟩
  · rintro ⟨m, b, hm, h1, h2, hb, rfl⟩; exact ⟨m, hm, (), h1, (), h2, b, hb, rfl⟩

theorem executePad1_eq_ok {P : Params} {s t : State} :
    executePad1 P s = .ok t ↔
      ∃ k bits, K1Is s k ∧ AllDigits k ∧ k ≠ [] ∧ SIs s bits ∧ (pad1From k 0 bits).length ≤ P.maxBits ∧
        t = s.commitS (pad1From k 0 bits) := by
  simp only [executePad1, bind_eq_ok, require_eq_ok, decide_eq_true_eq, operand_eq_ok, readK1_eq_ok, readS_eq_ok,
    validDigitKey_iff, pure_eq_ok, Except.ok.injEq]
  constructor
  · rintro ⟨k, hk, -, ⟨hd, hn⟩, b, hb, -, hl, rfl⟩; exact ⟨k, b, hk, hd, hn, hb, hl, rfl⟩
  · rintro ⟨k, b, hk, hd, hn, hb, hl, rfl⟩; exact ⟨k, hk, (), ⟨hd, hn⟩, b, hb, (), hl, rfl⟩

theorem executeUnpad1_eq_ok {s t : State} :
    executeUnpad1 s = .ok t ↔
      ∃ k u, K1Is s k ∧ AllDigits k ∧ k ≠ [] ∧
        unpad1From (cellGet s.mem.s) k s.sLen s.sLen 0 0 = .ok u ∧ t = s.commitS u := by
  simp only [executeUnpad1, bind_eq_ok, require_eq_ok, operand_eq_ok, readK1_eq_ok, validDigitKey_iff, pure_eq_ok,
    Except.ok.injEq]
  constructor
  · rintro ⟨k, hk, -, ⟨hd, hn⟩, u, hu, rfl⟩; exact ⟨k, u, hk, hd, hn, hu, rfl⟩
  · rintro ⟨k, u, hk, hd, hn, hu, rfl⟩; exact ⟨k, hk, (), ⟨hd, hn⟩, u, hu, rfl⟩

theorem executeRot_eq_ok {s t : State} :
    executeRot s = .ok t ↔
      ∃ k bits, K2Is s k ∧ AllDigits k ∧ k ≠ [] ∧ SIs s bits ∧
        t = (s.commitS (rotFrom k 1 bits).1).commitSh ((rotFrom k 1 bits).2.map (BitVec.ofNat 32)) := by
  simp only [executeRot, bind_eq_ok, require_eq_ok, operand_eq_ok, readK2_eq_ok, readS_eq_ok, validDigitKey_iff,
    pure_eq_ok, Except.ok.injEq]
  constructor
  · rintro ⟨k, hk, -, ⟨hd, hn⟩, b, hb, rfl⟩; exact ⟨k, b, hk, hd, hn, hb, rfl⟩
  · rintro ⟨k, b, hk, hd, hn, hb, rfl⟩; exact ⟨k, hk, (), ⟨hd, hn⟩, b, hb, rfl⟩

theorem executeUnrot_eq_ok {s t : State} :
    executeUnrot s = .ok t ↔
      ∃ k sh bits, K2Is s k ∧ AllDigits k ∧ k ≠ [] ∧ s.shLen = expectedShifts s ∧ ShIs s sh ∧
        (∀ v ∈ sh, v.toNat < s.sLen) ∧ SIs s bits ∧ t = s.commitS (unrot bits (sh.map BitVec.toNat)) := by
  simp only [executeUnrot, bind_eq_ok, require_eq_ok, decide_eq_true_eq, operand_eq_ok, readK2_eq_ok, readSh_eq_ok,
    readS_eq_ok, validDigitKey_iff, pure_eq_ok, Except.ok.injEq, List.all_eq_true]
  constructor
  · rintro ⟨k, hk, -, ⟨hd, hn⟩, -, he, sh, hsh, -, hv, b, hb, rfl⟩
    exact ⟨k, sh, b, hk, hd, hn, he, hsh, hv, hb, rfl⟩
  · rintro ⟨k, sh, b, hk, hd, hn, he, hsh, hv, hb, rfl⟩
    exact ⟨k, hk, (), ⟨hd, hn⟩, (), he, sh, hsh, (), hv, b, hb, rfl⟩

/-- After a commit, RK reads as the committed keys below the new count. -/
theorem rkCell_commitRk {rk : List Block} {s : State} {j : Nat} (h : j < rk.length) :
    rkCell (s.commitRk rk).mem j = rk[j]? := by
  simp [rkCell, cellGet_cellCommit_lt, h, hiHalf_append_loHalf]

theorem rkIs_commitRk (rk : List Block) (s : State) : RkIs (s.commitRk rk) rk :=
  ⟨rfl, fun _ h => rkCell_commitRk h⟩

/-- A commit of round keys leaves the marks of the halves beyond them (10_state.md R33). -/
theorem marks_commitRk {rk : List Block} (s : State) {j : Nat} (h : rk.length ≤ j) :
    (cellGet (s.commitRk rk).mem.rkHi j).isSome = (cellGet s.mem.rkHi j).isSome ∧
      (cellGet (s.commitRk rk).mem.rkLo j).isSome = (cellGet s.mem.rkLo j).isSome := by
  simp [cellGet_cellCommit_ge, h]

theorem sIs_commitS (t : Bits) (s : State) : SIs (s.commitS t) t :=
  ⟨rfl, fun _ h => cellGet_cellCommit_lt _ _ h⟩

theorem shIs_commitSh (sh : List Word) (s : State) : ShIs (s.commitSh sh) sh :=
  ⟨rfl, fun _ h => cellGet_cellCommit_lt _ _ h⟩

@[simp] theorem length_expandKey (P : Params) (m : List Byte) (n : Nat) : (expandKey P m n).length = n + 1 := by
  simp [expandKey]

@[simp] theorem length_bitsOf (v : Block) : (bitsOf v).length = 64 := by simp [bitsOf]

@[simp] theorem length_encStream (P : Params) (s : Bits) (rk : List Block) :
    (encStream P s rk).length = 64 * blockCount s.length := by
  simp [encStream, List.length_flatMap, Nat.mul_comm]

theorem length_decStream (P : Params) (c : Bits) (rk : List Block) (m : Nat) :
    (decStream P c rk m).length = min m (64 * (c.length / 64)) := by
  simp [decStream, List.length_flatMap, Nat.mul_comm]

@[simp] theorem length_rotl (s : Bits) (k : Nat) : (rotl s k).length = s.length := by
  simp [rotl]; omega

@[simp] theorem length_rotr (s : Bits) (k : Nat) : (rotr s k).length = s.length := by
  simp [rotr]

/-- ROT keeps the length of the string (44_rotate.md R205). -/
@[simp] theorem length_rotFrom_fst (k : List Byte) (i : Nat) (s : Bits) : (rotFrom k i s).1.length = s.length := by
  induction k generalizing i s with
  | nil => rfl
  | cons c rest ih =>
    unfold rotFrom
    split
    · rfl
    · simp [ih]

/-- ROT records at most one shift per key digit. -/
theorem length_rotFrom_snd_le (k : List Byte) (i : Nat) (s : Bits) : (rotFrom k i s).2.length ≤ k.length := by
  induction k generalizing i s with
  | nil => simp [rotFrom]
  | cons c rest ih =>
    unfold rotFrom
    split
    · simp
    · simpa using ih (i + 1) _

@[simp] theorem length_unrot (s : Bits) (sh : List Nat) : (unrot s sh).length = s.length := by
  induction sh with
  | nil => rfl
  | cons k rest ih =>
    unfold unrot at *
    simp only [List.foldr_cons]
    split <;> simp [ih]

/-- UNPAD1 never lengthens the string. -/
theorem length_unpad1From {get : Nat → Option Bool} {k : List Byte} {n fuel p i : Nat} {u : Bits}
    (h : unpad1From get k n fuel p i = .ok u) : u.length ≤ n - p := by
  induction fuel generalizing p i u with
  | zero => simp [unpad1From] at h; simp [h]
  | succ fuel ih =>
    unfold unpad1From at h
    split at h
    · split at h
      · cases h
      · split at h
        · cases h
        · split at h
          · cases h
          · next rest hr =>
            have := ih hr
            cases h
            simp only [List.length_cons]
            omega
    · simp at h; simp [h]

end Sys2Proof.Machine
end

