-- ==== Sys2Proof/Laws/HostBus.lean ====
section
/-! SUPPORT. Which register each address of the register map reaches, and what an idle step of the host is. -/
namespace Sys2Proof.Machine

variable (P : Params)

theorem maxRounds_bounds : 12 ≤ P.maxRounds ∧ P.maxRounds ≤ 255 := by
  have := P.roundsStep.isLt
  unfold Params.maxRounds
  omega

theorem maxKey_bounds : 1 ≤ P.maxKey ∧ P.maxKey ≤ 1024 := by
  have := P.keyStep.isLt
  unfold Params.maxKey
  omega

theorem maxBits_bounds : 64 ≤ P.maxBits ∧ P.maxBits ≤ 2 ^ 21 ∧ P.maxBits % 64 = 0 := by
  have := P.bitsStep.isLt
  unfold Params.maxBits
  omega

theorem regAt_rkHi {j : Nat} (h : j ≤ P.maxRounds) : regAt P (0x01000 + 8 * j) = some (.rkHi j) := by
  have := maxRounds_bounds P
  have h1 : (0x01000 + 8 * j - 0x01000) / 8 = j := by omega
  simp (disch := omega) only [regAt, if_neg, if_pos, h1]

theorem regAt_rkLo {j : Nat} (h : j ≤ P.maxRounds) : regAt P (0x01004 + 8 * j) = some (.rkLo j) := by
  have := maxRounds_bounds P
  have h1 : (0x01004 + 8 * j - 0x01000) / 8 = j := by omega
  simp (disch := omega) only [regAt, if_neg, if_pos, h1]

theorem regAt_k1Ch {j : Nat} (h : j < P.maxKey) : regAt P (0x02000 + 4 * j) = some (.k1Ch j) := by
  have := maxRounds_bounds P
  have h1 : (0x02000 + 4 * j - 0x02000) / 4 = j := by omega
  simp (disch := omega) only [regAt, if_neg, if_pos, h1]

theorem regAt_k2Ch {j : Nat} (h : j < P.maxKey) : regAt P (0x03000 + 4 * j) = some (.k2Ch j) := by
  have := maxRounds_bounds P
  have := maxKey_bounds P
  have h1 : (0x03000 + 4 * j - 0x03000) / 4 = j := by omega
  simp (disch := omega) only [regAt, if_neg, if_pos, h1]

theorem regAt_shW {j : Nat} (h : j < P.maxKey) : regAt P (0x04000 + 4 * j) = some (.shW j) := by
  have := maxRounds_bounds P
  have := maxKey_bounds P
  have h1 : (0x04000 + 4 * j - 0x04000) / 4 = j := by omega
  simp (disch := omega) only [regAt, if_neg, if_pos, h1]

theorem regAt_sW {w : Nat} (h : 32 * w < P.maxBits) : regAt P (0x10000 + 4 * w) = some (.sW w) := by
  have := maxRounds_bounds P
  have := maxKey_bounds P
  have h1 : (0x10000 + 4 * w - 0x10000) / 4 = w := by omega
  simp (disch := omega) only [regAt, if_neg, if_pos, h1]

/-- While no command is pending, a step is the host's next action. -/
theorem step_of_idle {s : State} {a : HostAction} (hp : s.pend = none) (hn : HostNext s a) :
    step s = hostAct Config.params s.tick a := by
  unfold step agentStep hostStep
  rw [hp]
  unfold HostNext at hn
  simp [hn]

/-- While the pending command's latency has not passed, a step is the host's next action. -/
theorem step_of_latency {s : State} {a : HostAction} (hl : 0 < s.latency) (hn : HostNext s a) :
    step s = hostAct Config.params s.tick a := by
  unfold step agentStep hostStep
  unfold HostNext at hn
  split
  · omega
  · simp [hn]

/-- While the pending command's latency has not passed, a host whose program has ended lets it run down. -/
theorem step_of_latency_ended {s : State} (hl : 0 < s.latency) (hn : s.hostProgram[s.hostIndex]? = none) :
    step s = .next s.tick := by
  unfold step agentStep hostStep
  split
  · omega
  · simp [hn]

/-- Once the pending word's latency has passed, a step is its completion. -/
theorem step_of_latency_zero {s : State} {w : Word} (hp : s.pend = some w) (hl : s.latency = 0) :
    step s = completeCommand w s := by
  simp only [step, agentStep, hp, hl]

theorem tick_of_latency_zero {s : State} (h : s.latency = 0) : s.tick = s := by
  cases s
  simp_all [State.tick]

/-- A run goes on after a step that answers a next state. -/
theorem run_succ_of_next {M : Host.Core} {n : Nat} {s t : M.State} (h : M.step s = .next t) :
    M.run (n + 1) s = M.run n t := by
  have h1 : M.run (n + 1) s = match M.step s with
      | .next s' => M.run n s'
      | .fault r => .fault r
      | .refused r => .refused r := rfl
  rw [h1, h]

end Sys2Proof.Machine
end

