-- ==== Sys2Proof/Laws/KeySchedule.lean ====
section
/-! SUPPORT. What the key schedule answers: the big-endian keys of the hash output (40_key_schedule.md R102). -/
namespace Sys2Proof.Machine

/-- Eight bytes taken at an offset are those eight bytes. -/
theorem take_drop_eight (l : List Byte) (i : Nat) (h : i + 8 ≤ l.length) :
    (l.drop i).take 8 = (List.range 8).map fun b => l.getD (i + b) 0 := by
  apply List.ext_getElem
  · simp; omega
  · intro k h1 h2
    have : i + k < l.length := by simp at h2; omega
    simp [this]

/-- A big-endian number of eight bytes is the sum of its weighted bytes. -/
theorem beNat_map_range (f : Nat → Byte) :
    beNat ((List.range 8).map f) = ∑ b ∈ Finset.range 8, (f b).toNat * 2 ^ (8 * (7 - b)) := by
  simp [beNat, List.range_succ, Finset.sum_range_succ]
  ring

/-- `ExpandKey` is the schedule of its seed (40_key_schedule.md R102). -/
theorem isSchedule_expandKey (P : Params) (m : List Byte) (n : Nat) : IsSchedule P m n (expandKey P m n) := by
  refine ⟨by simp [expandKey], fun j hj => ?_⟩
  have hx : (P.xof m (8 * (n + 1))).length = 8 * (n + 1) := by simp [Params.xof]
  have hk : (expandKey P m n).getD j 0 =
      BitVec.ofNat 64 (beNat (((P.xof m (8 * (n + 1))).drop (8 * j)).take 8)) := by
    simp [expandKey, show j < n + 1 by omega]
  rw [hk, take_drop_eight _ _ (by omega), beNat_map_range, BitVec.toNat_ofNat]
  apply Nat.mod_eq_of_lt
  simp only [Finset.sum_range_succ, Finset.sum_range_zero]
  have hb := fun b => ((P.xof m (8 * (n + 1))).getD (8 * j + b) 0).isLt
  have h0 := hb 0
  have h1 := hb 1
  have h2 := hb 2
  have h3 := hb 3
  have h4 := hb 4
  have h5 := hb 5
  have h6 := hb 6
  have h7 := hb 7
  norm_num
  norm_num at h0 h1 h2 h3 h4 h5 h6 h7
  omega

/-- A seed has one schedule of each length. -/
theorem isSchedule_unique {P : Params} {m : List Byte} {n : Nat} {a b : List Block} (ha : IsSchedule P m n a)
    (hb : IsSchedule P m n b) : a = b := by
  obtain ⟨la, ga⟩ := ha
  obtain ⟨lb, gb⟩ := hb
  apply List.ext_getElem (by omega)
  intro j h1 h2
  have := BitVec.eq_of_toNat_eq ((ga j (by omega)).trans (gb j (by omega)).symm)
  simpa [h1, h2] using this

end Sys2Proof.Machine
end

