-- ==== Sys2Proof/Laws/Memory.lean ====
section
/-! SUPPORT. Every operation on memory keeps its canonical form, and the memory after reset has it. -/
namespace Sys2Proof.Machine

theorem reset_mem_wf : State.reset.mem.wf := by decide

theorem commitS_wf {s : State} (t : Bits) (h : s.mem.wf) : (s.commitS t).mem.wf := by
  obtain ⟨h1, h2, h3, h4, h5, h6⟩ := h
  exact ⟨h1, h2, h3, h4, rising_cellCommit _ _ h5, h6⟩

theorem commitRk_wf {s : State} (rk : List Block) (h : s.mem.wf) : (s.commitRk rk).mem.wf := by
  obtain ⟨h1, h2, h3, h4, h5, h6⟩ := h
  exact ⟨rising_cellCommit _ _ h1, rising_cellCommit _ _ h2, h3, h4, h5, h6⟩

theorem commitSh_wf {s : State} (sh : List Word) (h : s.mem.wf) : (s.commitSh sh).mem.wf := by
  obtain ⟨h1, h2, h3, h4, h5, h6⟩ := h
  exact ⟨h1, h2, h3, h4, h5, rising_cellCommit _ _ h6⟩

/-- A fold of cell writes keeps the canonical form. -/
theorem rising_foldl_cellSet {α β : Type} (idx : β → Nat) (val : β → α) (l : List β) {b : Buffer α} (h : Rising b) :
    Rising (l.foldl (fun acc k => cellSet (idx k) (val k) acc) b) := by
  induction l generalizing b with
  | nil => exact h
  | cons k rest ih => exact ih (rising_cellSet _ _ h)

theorem writeSWord_rising (w : Nat) (v : Word) {b : Buffer Bool} (h : Rising b) : Rising (writeSWord w v b) := by
  unfold writeSWord
  generalize List.range 32 = l
  exact rising_foldl_cellSet (fun k => 32 * w + k) (fun k => v.getLsbD (31 - k)) l h

/-- A host write keeps the canonical form. -/
theorem writeReg_wf (P : Params) (v : Word) {s : State} (r : Reg) (h : s.mem.wf) : (writeReg P v s r).mem.wf := by
  obtain ⟨h1, h2, h3, h4, h5, h6⟩ := id h
  cases r with
  | rkHi j => exact ⟨rising_cellSet _ _ h1, h2, h3, h4, h5, h6⟩
  | rkLo j => exact ⟨h1, rising_cellSet _ _ h2, h3, h4, h5, h6⟩
  | k1Ch j => exact ⟨h1, h2, rising_cellSet _ _ h3, h4, h5, h6⟩
  | k2Ch j => exact ⟨h1, h2, h3, rising_cellSet _ _ h4, h5, h6⟩
  | shW j => exact ⟨h1, h2, h3, h4, h5, rising_cellSet _ _ h6⟩
  | sW w =>
    have hw := writeSWord_rising w v h5
    simp only [writeReg]
    generalize writeSWord w v s.mem.s = b at hw ⊢
    exact ⟨h1, h2, h3, h4, hw, h6⟩
  | nrk => simp only [writeReg]; split <;> exact h
  | sLen => simp only [writeReg]; split <;> exact h
  | shLen => simp only [writeReg]; split <;> exact h
  | k1Len => simp only [writeReg]; split <;> exact h
  | k2Len => simp only [writeReg]; split <;> exact h
  | cmd => exact h
  | status => exact h
  | xHi => exact h
  | xLo => exact h
  | olen => exact h
  | capMaxBits => exact h
  | capMaxKey => exact h
  | capMaxRounds => exact h

theorem cellGet_foldl_cellSet {α : Type} (base : Nat) (f : Nat → α) (n i : Nat) (b : Buffer α) :
    cellGet ((List.range n).foldl (fun acc k => cellSet (base + k) (f k) acc) b) i =
      if base ≤ i ∧ i < base + n then some (f (i - base)) else cellGet b i := by
  induction n with
  | zero => simp
  | succ n ih =>
    rw [List.range_succ, List.foldl_append, List.foldl_cons, List.foldl_nil]
    by_cases h : i = base + n
    · subst h
      simp
    · rw [cellGet_cellSet_other h, ih]
      by_cases h1 : base ≤ i ∧ i < base + n
      · rw [if_pos h1, if_pos (by omega)]
      · rw [if_neg h1, if_neg (by omega)]

/-- A write of S_W[w] sets the cells of its word and no other (20_memory.md R66). -/
theorem cellGet_writeSWord (w : Nat) (v : Word) (i : Nat) (b : Buffer Bool) :
    cellGet (writeSWord w v b) i =
      if 32 * w ≤ i ∧ i < 32 * w + 32 then some (v.getLsbD (31 - (i - 32 * w))) else cellGet b i := by
  have h := cellGet_foldl_cellSet (32 * w) (fun k => v.getLsbD (31 - k)) 32 i b
  unfold writeSWord
  exact h

end Sys2Proof.Machine
end

