-- ==== Sys2Proof/Laws/Pad.lean ====
section
/-! SUPPORT. Where the pad engine puts each bit, and what it recovers from where (43_pad.md R180, R181). -/
namespace Sys2Proof.Machine

theorem cyclicDigit_eq_padDigit (k : List Byte) (i : Nat) : cyclicDigit k i = padDigit k i := rfl

theorem padPos_zero (k : List Byte) : padPos k 0 = 0 := by simp [padPos]

/-- The next bit stands after this bit and its zeros. -/
theorem padPos_succ (k : List Byte) (i : Nat) : padPos k (i + 1) = padPos k i + 1 + padDigit k i := by
  unfold padPos
  rw [Finset.sum_range_succ]
  omega

theorem padPos_lt {k : List Byte} {i j : Nat} (h : i < j) : padPos k i < padPos k j := by
  induction j with
  | zero => omega
  | succ j ih =>
    rw [padPos_succ]
    by_cases h' : i < j
    · have := ih h'
      omega
    · obtain rfl : i = j := by omega
      omega

theorem padPos_le {k : List Byte} {i j : Nat} (h : i ≤ j) : padPos k i ≤ padPos k j := by
  rcases Nat.lt_or_eq_of_le h with h | rfl
  · exact Nat.le_of_lt (padPos_lt h)
  · exact Nat.le_refl _

theorem le_padPos (k : List Byte) (i : Nat) : i ≤ padPos k i := by
  unfold padPos
  omega

/-- The length of the padded string (43_pad.md R180). -/
theorem length_pad1From (k : List Byte) (i : Nat) (b : Bits) :
    (pad1From k i b).length + padPos k i = padPos k (i + b.length) := by
  induction b generalizing i with
  | nil => simp [pad1From]
  | cons x rest ih =>
    have := ih (i + 1)
    simp only [pad1From, List.length_cons, List.length_append, List.length_replicate]
    rw [padPos_succ] at this
    rw [show i + (rest.length + 1) = i + 1 + rest.length by omega, ← this, cyclicDigit_eq_padDigit]
    omega

/-- The m-th bit stands at its place in the padded string. -/
theorem getElem?_pad1From_padPos (k : List Byte) (i : Nat) {m : Nat} {b : Bits} (hm : m < b.length) :
    (pad1From k i b)[padPos k (i + m) - padPos k i]? = b[m]? := by
  induction b generalizing i m with
  | nil => simp at hm
  | cons x rest ih =>
    cases m with
    | zero => simp [pad1From]
    | succ m =>
      have h2 := padPos_le (k := k) (show i + 1 ≤ i + 1 + m by omega)
      rw [padPos_succ] at h2
      have h3 := ih (i + 1) (m := m) (by simpa using hm)
      rw [padPos_succ] at h3
      simp only [pad1From]
      rw [show i + (m + 1) = i + 1 + m by omega,
        show padPos k (i + 1 + m) - padPos k i = (padPos k (i + 1 + m) - padPos k i - 1) + 1 by omega,
        List.getElem?_cons_succ, List.getElem?_append_right (by simp [cyclicDigit_eq_padDigit]; omega)]
      simp only [List.length_replicate, List.getElem?_cons_succ, cyclicDigit_eq_padDigit]
      rw [← h3]
      congr 1
      omega

/-- Every other place of the padded string holds a zero. -/
theorem getElem?_pad1From_other (k : List Byte) (i : Nat) {p : Nat} {b : Bits} (hp : p < (pad1From k i b).length)
    (h : ∀ m, m < b.length → padPos k (i + m) ≠ padPos k i + p) : (pad1From k i b)[p]? = some false := by
  induction b generalizing i p with
  | nil => simp [pad1From] at hp
  | cons x rest ih =>
    cases p with
    | zero => exact absurd (by simp) (h 0 (by simp))
    | succ p =>
      simp only [pad1From, List.getElem?_cons_succ]
      by_cases hr : p < cyclicDigit k i
      · rw [List.getElem?_append_left (by simpa using hr)]
        simp [hr]
      · rw [List.getElem?_append_right (by simpa using hr)]
        simp only [List.length_replicate]
        apply ih
        · simp [pad1From] at hp
          omega
        · intro m hm hh
          apply h (m + 1) (by simpa using hm)
          rw [padPos_succ, ← cyclicDigit_eq_padDigit] at hh
          rw [show i + (m + 1) = i + 1 + m by omega, hh]
          omega

/-- `Unpad1` on complete groups recovers the first bit of each (43_pad.md R181). -/
theorem unpad1From_eq_ok {get : Nat → Option Bool} {k : List Byte} {u : Bits} {n f i : Nat}
    (hn : n = padPos k (i + u.length)) (hf : u.length ≤ f) (hg : ∀ m, m < u.length → get (padPos k (i + m)) = u[m]?) :
    unpad1From get k n f (padPos k i) i = .ok u := by
  induction u generalizing i f with
  | nil =>
    cases f with
    | zero => rfl
    | succ f =>
      simp at hn
      simp [unpad1From, hn]
  | cons x rest ih =>
    cases f with
    | zero => simp at hf
    | succ f =>
      have h1 : padPos k i < n := by rw [hn]; exact padPos_lt (by simp)
      have h2 : padPos k (i + 1) ≤ n := by rw [hn]; exact padPos_le (by simp)
      have h3 : padPos k i + 1 + cyclicDigit k i = padPos k (i + 1) := by rw [padPos_succ, cyclicDigit_eq_padDigit]
      have h4 : get (padPos k i) = some x := by simpa using hg 0 (by simp)
      have h5 : unpad1From get k n f (padPos k (i + 1)) (i + 1) = .ok rest := by
        refine ih (by rw [hn]; congr 1; simp; omega) (by simpa using hf) fun m hm => ?_
        have := hg (m + 1) (by simpa using hm)
        rw [show i + (m + 1) = i + 1 + m by omega] at this
        simpa using this
      unfold unpad1From
      rw [if_pos h1, h3, if_neg (by omega), h4]
      simp only [h5]

/-- `Unpad1` on an incomplete last group is a format error (43_pad.md R181). -/
theorem unpad1From_eq_formatError {get : Nat → Option Bool} {k : List Byte} {m n f i : Nat}
    (h1 : padPos k (i + m) < n) (h2 : n < padPos k (i + m + 1)) (hf : m < f)
    (hg : ∀ j, j < m → (get (padPos k (i + j))).isSome) :
    unpad1From get k n f (padPos k i) i = .error (.raise .formatError) := by
  induction m generalizing i f with
  | zero =>
    cases f with
    | zero => omega
    | succ f =>
      rw [padPos_succ] at h2
      unfold unpad1From
      rw [if_pos (by simpa using h1), if_pos (by rw [cyclicDigit_eq_padDigit]; simpa using h2)]
  | succ m ih =>
    cases f with
    | zero => omega
    | succ f =>
      have h3 := padPos_le (k := k) (show i + 1 ≤ i + (m + 1) by omega)
      have h4 := padPos_lt (k := k) (show i < i + 1 by omega)
      have h5 : padPos k i + 1 + cyclicDigit k i = padPos k (i + 1) := by rw [padPos_succ, cyclicDigit_eq_padDigit]
      obtain ⟨v, hv⟩ := Option.isSome_iff_exists.1 (hg 0 (by omega))
      have h6 : unpad1From get k n f (padPos k (i + 1)) (i + 1) = .error (.raise .formatError) := by
        refine ih (by rwa [show i + 1 + m = i + (m + 1) by omega]) (by rwa [show i + 1 + m = i + (m + 1) by omega])
          (by omega) fun j hj => ?_
        have := hg (j + 1) (by omega)
        rwa [show i + (j + 1) = i + 1 + j by omega] at this
      unfold unpad1From
      rw [if_pos (by omega), h5, if_neg (by omega), show get (padPos k i) = some v by simpa using hv]
      simp only [h6]

/-- `Unpad1` stops at the first unwritten bit it keeps (20_memory.md R68). -/
theorem unpad1From_eq_unwritten {get : Nat → Option Bool} {k : List Byte} {m n f i : Nat}
    (h2 : padPos k (i + m + 1) ≤ n) (hf : m < f) (hg : ∀ j, j < m → (get (padPos k (i + j))).isSome)
    (hn : get (padPos k (i + m)) = none) :
    unpad1From get k n f (padPos k i) i = .error (.unwritten (.s (padPos k (i + m)))) := by
  induction m generalizing i f with
  | zero =>
    cases f with
    | zero => omega
    | succ f =>
      have h4 := padPos_lt (k := k) (show i < i + 1 by omega)
      have h5 : padPos k i + 1 + cyclicDigit k i = padPos k (i + 1) := by rw [padPos_succ, cyclicDigit_eq_padDigit]
      simp only [Nat.add_zero] at h2 hn ⊢
      unfold unpad1From
      rw [if_pos (by omega), h5, if_neg (by omega), hn]
  | succ m ih =>
    cases f with
    | zero => omega
    | succ f =>
      have h3 := padPos_le (k := k) (show i + 1 ≤ i + (m + 1) + 1 by omega)
      have h4 := padPos_lt (k := k) (show i < i + 1 by omega)
      have h5 : padPos k i + 1 + cyclicDigit k i = padPos k (i + 1) := by rw [padPos_succ, cyclicDigit_eq_padDigit]
      obtain ⟨v, hv⟩ := Option.isSome_iff_exists.1 (hg 0 (by omega))
      have h6 : unpad1From get k n f (padPos k (i + 1)) (i + 1) =
          .error (.unwritten (.s (padPos k (i + 1 + m)))) := by
        refine ih (by rwa [show i + 1 + m = i + (m + 1) by omega]) (by omega) (fun j hj => ?_)
          (by rwa [show i + 1 + m = i + (m + 1) by omega])
        have := hg (j + 1) (by omega)
        rwa [show i + (j + 1) = i + 1 + j by omega] at this
      unfold unpad1From
      rw [if_pos (by omega), h5, if_neg (by omega), show get (padPos k i) = some v by simpa using hv]
      simp only [h6]
      rw [show i + 1 + m = i + (m + 1) by omega]

end Sys2Proof.Machine
end

