-- ==== Sys2Proof/Laws/PerInstr.lean ====
section
/-! SUPPORT. Facts about every command, one lemma per constructor. -/

/-- The fields of a command's word are its opcode, its immediate and zero (30_encoding.md R80, R81). -/
def Sys2Proof.Laws.EncodeFields.Statement (i : Sys2Proof.Instr) : Prop :=
  Sys2Proof.opcField (Sys2Proof.encode i) = i.opcode ∧ Sys2Proof.immField (Sys2Proof.encode i) = i.imm ∧
    Sys2Proof.rsvdField (Sys2Proof.encode i) = 0

namespace Sys2Proof.Laws.EncodeFields

theorem fields_append (a b : Byte) :
    opcField (a ++ b ++ (0 : BitVec 16)) = a ∧ immField (a ++ b ++ (0 : BitVec 16)) = b ∧
      rsvdField (a ++ b ++ (0 : BitVec 16)) = 0 := by
  refine ⟨?_, ?_, ?_⟩
  · apply BitVec.eq_of_getLsbD_eq
    intro k hk
    simp only [opcField, BitVec.getLsbD_extractLsb', BitVec.getLsbD_append, hk, decide_true, Bool.true_and]
    rw [if_neg (by omega), if_neg (by omega)]
    congr 1
    omega
  · apply BitVec.eq_of_getLsbD_eq
    intro k hk
    simp only [immField, BitVec.getLsbD_extractLsb', BitVec.getLsbD_append, hk, decide_true, Bool.true_and]
    rw [if_neg (by omega), if_pos (by omega)]
    congr 1
    omega
  · apply BitVec.eq_of_getLsbD_eq
    intro k hk
    simp only [rsvdField, BitVec.getLsbD_extractLsb', BitVec.getLsbD_append, hk, decide_true, Bool.true_and]
    rw [if_pos (by omega)]
    congr 1
    omega

theorem nop : Statement .nop := fields_append _ _
theorem xork (r : Byte) : Statement (.xork r) := fields_append _ _
theorem sub : Statement .sub := fields_append _ _
theorem isub : Statement .isub := fields_append _ _
theorem perm : Statement .perm := fields_append _ _
theorem iperm : Statement .iperm := fields_append _ _
theorem encb : Statement .encb := fields_append _ _
theorem decb : Statement .decb := fields_append _ _
theorem keyexp (n : Byte) : Statement (.keyexp n) := fields_append _ _
theorem encs : Statement .encs := fields_append _ _
theorem decs : Statement .decs := fields_append _ _
theorem pad1 : Statement .pad1 := fields_append _ _
theorem unpad1 : Statement .unpad1 := fields_append _ _
theorem rot : Statement .rot := fields_append _ _
theorem unrot : Statement .unrot := fields_append _ _

end Sys2Proof.Laws.EncodeFields
end

