-- ==== Sys2Proof/Laws/Rotate.lean ====
section
/-! SUPPORT. What the rotation engine computes, given the string after each shift (44_rotate.md R201, R202). -/
namespace Sys2Proof.Machine

/-- `Rot` on a string that is not empty: one rotation and one shift for each digit (44_rotate.md R201). -/
theorem rotFrom_eq (k : List Byte) (i : Nat) {n : Nat} {b : Bits} (cur : Nat → Bits) (sh : Nat → Nat)
    (hb : b.length = n) (hn : 0 < n) (h0 : cur 0 = b)
    (hsh : ∀ j, j < k.length → sh j = (digit (k.getD j 0) * (i + j)) % n)
    (hc : ∀ j, j < k.length → cur (j + 1) = rotl (cur j) (sh j)) :
    rotFrom k i b = (cur k.length, (List.range k.length).map sh) := by
  induction k generalizing i b cur sh with
  | nil => simp [rotFrom, h0]
  | cons c rest ih =>
    have hs0 : sh 0 = (digit c * i) % n := by simpa using hsh 0 (by simp)
    have hc0 := hc 0 (by simp)
    rw [h0] at hc0
    have hr := ih (i + 1) (b := rotl b (sh 0)) (fun j => cur (j + 1)) (fun j => sh (j + 1)) (by simpa) hc0
      (fun j hj => by
        rw [hsh (j + 1) (by simpa using hj)]
        simp [Nat.add_assoc, Nat.add_comm 1 j])
      (fun j hj => hc (j + 1) (by simpa using hj))
    unfold rotFrom
    rw [if_neg (by omega)]
    simp only [hb, ← hs0, hr]
    simp [List.range_succ_eq_map]

/-- `Rot` leaves the empty string alone and records nothing (44_rotate.md R205). -/
theorem rotFrom_nil (k : List Byte) (i : Nat) : rotFrom k i [] = ([], []) := by cases k <;> rfl

/-- `Unrot`: one right rotation for each shift, last first (44_rotate.md R202). -/
theorem unrot_eq (sh : List Nat) {n : Nat} {b : Bits} (cur : Nat → Bits) (hb : b.length = n) (h0 : cur sh.length = b)
    (hc : ∀ j (h : j < sh.length), cur j = (cur (j + 1)).drop (n - sh[j]) ++ (cur (j + 1)).take (n - sh[j])) :
    unrot b sh = cur 0 := by
  induction sh generalizing cur with
  | nil => simpa [unrot] using h0.symm
  | cons k rest ih =>
    have h1 := ih (fun j => cur (j + 1)) (by simpa using h0) (fun j hj => hc (j + 1) (by simpa using hj))
    have hl : (cur 1).length = n := by rw [show cur 1 = unrot b rest from h1.symm]; simpa
    have h2 := hc 0 (by simp)
    unfold unrot at *
    simp only [List.foldr_cons]
    rw [h1]
    split
    · next hk =>
      rw [h2]
      simp [hk, ← hl]
    · rw [h2]
      simp [rotr, hl]

end Sys2Proof.Machine
end

