-- ==== Sys2Proof/Laws/Stream.lean ====
section
/-! SUPPORT. Which bit of which block each bit of a stream is (20_memory.md R69, 42_stream.md R161, R162). -/
namespace Sys2Proof.Machine

/-- Bit 63-j of the view of block b is bit 64b+j of the string, or 0 beyond its end (20_memory.md R69). -/
theorem getLsbD_blockOf (s : Bits) (b : Nat) {j : Nat} (hj : j < 64) :
    (blockOf s b).getLsbD (63 - j) = (s[64 * b + j]?).getD false := by
  unfold blockOf
  rw [BitVec.getLsbD_ofFnLE]
  have : 63 - j < 64 := by omega
  simp only [this, dite_true]
  rw [show 64 * b + (63 - (63 - j)) = 64 * b + j by omega, List.getD_eq_getElem?_getD]

/-- Bit j of the string of a value is its bit 63-j (20_memory.md R69). -/
theorem getElem?_bitsOf (v : Block) {j : Nat} (hj : j < 64) : (bitsOf v)[j]? = some (v.getLsbD (63 - j)) := by
  simp [bitsOf, hj]

/-- Bit 64b+j of a string of blocks is bit 63-j of block b. -/
theorem getElem?_flatMap_bitsOf (f : Nat → Block) {n b j : Nat} (hb : b < n) (hj : j < 64) :
    ((List.range n).flatMap fun b => bitsOf (f b))[64 * b + j]? = some ((f b).getLsbD (63 - j)) := by
  induction n with
  | zero => omega
  | succ n ih =>
    rw [List.range_succ, List.flatMap_append]
    have hl : ((List.range n).flatMap fun b => bitsOf (f b)).length = 64 * n := by
      simp [List.length_flatMap, Nat.mul_comm]
    by_cases h : b < n
    · rw [List.getElem?_append_left (by rw [hl]; omega)]
      exact ih h
    · obtain rfl : b = n := by omega
      rw [List.getElem?_append_right (by rw [hl]; omega), hl]
      simp [getElem?_bitsOf _ hj, show 64 * b + j - 64 * b = j by omega]

/-- Bit 64b+j of the encrypted stream (42_stream.md R161). -/
theorem getElem?_encStream (P : Params) (s : Bits) (rk : List Block) {b j : Nat} (hb : b < blockCount s.length)
    (hj : j < 64) :
    (encStream P s rk)[64 * b + j]? = some ((encBlock P (blockOf s b) rk).getLsbD (63 - j)) :=
  getElem?_flatMap_bitsOf _ hb hj

/-- Bit 64b+j of the decrypted stream, where it is kept (42_stream.md R162). -/
theorem getElem?_decStream (P : Params) (c : Bits) (rk : List Block) {m b j : Nat} (hb : b < c.length / 64)
    (hj : j < 64) (hm : 64 * b + j < m) :
    (decStream P c rk m)[64 * b + j]? = some ((decBlock P (blockOf c b) rk).getLsbD (63 - j)) := by
  unfold decStream
  rw [List.getElem?_take, if_pos hm]
  exact getElem?_flatMap_bitsOf _ hb hj

end Sys2Proof.Machine
end

