-- ==== Sys2Proof/Tests/Slice0.lean ====
section
/-! SUPPORT. The model's own tests. Expected values are those of spec/95_test_vectors.md (by section, under its test
configuration TC1) or are written out from the encoding tables of spec/30_encoding.md. The theorems named witness_… show
for each statement with hypotheses a state and operands that meet them. -/
namespace Sys2Proof.Tests

open Sys2Proof.Machine

/-! ## The test configuration TC1 (95_test_vectors.md, section 0) -/

/-- The S-box of TC1. -/
def tc1Sbox : Equiv.Perm Nibble where
  toFun v := BitVec.ofNat 4 ([0xC, 5, 6, 0xB, 9, 0, 0xA, 0xD, 3, 0xE, 0xF, 8, 4, 7, 1, 2].getD v.toNat 0)
  invFun v := BitVec.ofNat 4 ([5, 0xE, 0xF, 8, 0xC, 1, 2, 0xD, 0xB, 4, 6, 3, 0, 7, 9, 0xA].getD v.toNat 0)
  left_inv := by decide
  right_inv := by decide

/-- The bit permutation of TC1. -/
def tc1Perm : Equiv.Perm (Fin 64) where
  toFun i := Fin.ofNat 64 (if i.val = 63 then 63 else 16 * i.val % 63)
  invFun i := Fin.ofNat 64 (if i.val = 63 then 63 else 4 * i.val % 63)
  left_inv := by decide +kernel
  right_inv := by decide +kernel

/-- The 13 keys of the seed "1234567" under TC1 (95_test_vectors.md, section 2.1). -/
def tc1Keys : List Nat :=
  [0xCA260964445F0267, 0xC70FF53D5AE45BBA, 0xF57D0379EA7B27B4, 0x50D4C884474B145A, 0x8A91619D0F6225A5,
   0x0DF46F9AEE8C2EC2, 0xDBA39ADC15EDC165, 0xFDEFFC173C34076B, 0x3884C0ADF0DFACDE, 0x3B17ECAF7AD60144,
   0x11A2B78245601F03, 0x351A4BA74BD8FED2, 0xD4D512968B930C1A]

/-- TC1 on the two seeds of the vectors: "1234567" and the empty seed. -/
def tc1 : Params where
  sbox := tc1Sbox
  perm := tc1Perm
  xofByte m k :=
    if m = [] then BitVec.ofNat 8 (0x46B9DD2B0BA88D13 / 256 ^ (7 - k))
    else BitVec.ofNat 8 (tc1Keys.getD (k / 8) 0 / 256 ^ (7 - k % 8))
  bitsStep := 31
  keyStep := 15
  roundsStep := 0

/-! ## Helpers -/

/-- The reset state with these operands loaded. -/
def loaded (rk : List Block) (k1 k2 : List Byte) (s : Bits) (sh : List Word) : State :=
  { State.reset with
    nrk := rk.length
    k1Len := k1.length
    k2Len := k2.length
    sLen := s.length
    shLen := sh.length
    mem :=
      { rkHi := cellsFrom 0 (rk.map hiHalf)
        rkLo := cellsFrom 0 (rk.map loHalf)
        k1 := cellsFrom 0 k1
        k2 := cellsFrom 0 k2
        s := cellsFrom 0 s
        sh := cellsFrom 0 sh } }

/-- The host is about to do this. -/
def asking (a : HostAction) (s : State) : State := { s with hostProgram := [a], hostIndex := 0 }

/-- A word has been accepted and completes after l more host steps. -/
def waiting (w : Word) (l : Nat) (s : State) : State :=
  { s with pend := some w, status := { s.status with busy := true, done := false }, latency := l }

/-- X after a command. -/
def xOf : Except Stop State → Option Block
  | .ok t => some t.x
  | .error _ => none

/-- S[0..S_LEN) after a command. -/
def sOf : Except Stop State → Except CellId Bits
  | .ok t => readS t
  | .error _ => .ok []

/-- SH[0..SH_LEN) after a command. -/
def shOf : Except Stop State → Except CellId (List Word)
  | .ok t => readSh t
  | .error _ => .ok []

/-- RK[0..NRK) after a command. -/
def rkOf : Except Stop State → Except CellId (List Block)
  | .ok t => readRk t
  | .error _ => .ok []

/-- STATUS as the host reads it after a step. -/
def statusOf : Host.Outcome State Fault Refusal → Option Word
  | .next t => some (statusWord t.status)
  | .fault _ => none
  | .refused _ => none

/-- What the last host read answered. -/
def answerOf : Host.Outcome State Fault Refusal → Option (Addr × Word)
  | .next t => t.hostReads.head?
  | .fault _ => none
  | .refused _ => none

theorem loaded_k1 (rk : List Block) (k1 k2 : List Byte) (s : Bits) (sh : List Word) :
    K1Is (loaded rk k1 k2 s sh) k1 :=
  ⟨rfl, fun j _ => by simp [loaded, cellGet_cellsFrom]⟩

theorem loaded_k2 (rk : List Block) (k1 k2 : List Byte) (s : Bits) (sh : List Word) :
    K2Is (loaded rk k1 k2 s sh) k2 :=
  ⟨rfl, fun j _ => by simp [loaded, cellGet_cellsFrom]⟩

theorem loaded_s (rk : List Block) (k1 k2 : List Byte) (s : Bits) (sh : List Word) :
    SIs (loaded rk k1 k2 s sh) s :=
  ⟨rfl, fun j _ => by simp [loaded, cellGet_cellsFrom]⟩

theorem loaded_sh (rk : List Block) (k1 k2 : List Byte) (s : Bits) (sh : List Word) :
    ShIs (loaded rk k1 k2 s sh) sh :=
  ⟨rfl, fun j _ => by simp [loaded, cellGet_cellsFrom]⟩

/-! ## Well-formedness, decoding and encoding -/

/-- The one operand bound: 12 rounds are well formed under TC1, 13 are not (30_encoding.md R84). -/
theorem test_wf : (Instr.keyexp 12).wf tc1 = true ∧ (Instr.keyexp 13).wf tc1 = false := by decide

/-- The words of the control, key-schedule and round-engine commands (30_encoding.md R83). -/
theorem test_decode_round_engine :
    decode tc1 0b00000000_00000000_0000000000000000#32 = .ok .nop ∧
    decode tc1 0b00000001_00000011_0000000000000000#32 = .ok (.xork 3) ∧
    decode tc1 0b00000001_11111111_0000000000000000#32 = .ok (.xork 255) ∧
    decode tc1 0b00000010_00000000_0000000000000000#32 = .ok .sub ∧
    decode tc1 0b00000011_00000000_0000000000000000#32 = .ok .isub ∧
    decode tc1 0b00000100_00000000_0000000000000000#32 = .ok .perm ∧
    decode tc1 0b00000101_00000000_0000000000000000#32 = .ok .iperm ∧
    decode tc1 0b00000110_00000000_0000000000000000#32 = .ok .encb ∧
    decode tc1 0b00000111_00000000_0000000000000000#32 = .ok .decb ∧
    decode tc1 0b00001000_00001100_0000000000000000#32 = .ok (.keyexp 12) := by decide

/-- The words of the stream, pad and rotate commands (30_encoding.md R83). -/
theorem test_decode_stream :
    decode tc1 0b00010000_00000000_0000000000000000#32 = .ok .encs ∧
    decode tc1 0b00010001_00000000_0000000000000000#32 = .ok .decs ∧
    decode tc1 0b00100000_00000000_0000000000000000#32 = .ok .pad1 ∧
    decode tc1 0b00100001_00000000_0000000000000000#32 = .ok .unpad1 ∧
    decode tc1 0b00100010_00000000_0000000000000000#32 = .ok .rot ∧
    decode tc1 0b00100011_00000000_0000000000000000#32 = .ok .unrot := by decide

/-- Illegal words, one of each case of 30_encoding.md R85. -/
theorem test_decode_illegal :
    decode tc1 0x09000000#32 = .error (.opcode 0x09) ∧
    decode tc1 0x10000001#32 = .error (.reserved 1) ∧
    decode tc1 0x02010000#32 = .error (.immediate 1) ∧
    decode tc1 0x080D0000#32 = .error (.rounds 13) := by decide

/-- Assembled words of 95_test_vectors.md, sections 2.1 and 2.2, and programs P1 and P2. -/
theorem test_encode :
    encode (.keyexp 12) = 0x080C0000#32 ∧ encode (.xork 1) = 0x01010000#32 ∧ encode .encs = 0x10000000#32 ∧
    encode .unpad1 = 0x21000000#32 ∧ encode .unrot = 0x23000000#32 := by decide

/-- A table word reaches the decoder, and a word longer than 32 bits is no command (30_encoding.md R80). -/
theorem test_table_word :
    decodeTableWord 32 0x10000000 = some .encs ∧ decodeTableWord 32 0x09000000 = none ∧
    decodeTableWord 40 0x110000000 = none := by decide

/-- The word placed for the next step is the one that step runs. -/
theorem test_with_fetch_word :
    step (State.reset.withFetchWord 32 0x06000000) = exec .encb (State.reset.withFetchWord 32 0x06000000) := rfl

/-! ## Commands -/

/-- 95_test_vectors.md, section 2.6: NOP from STATUS 0x00000232. -/
theorem test_nop :
    statusWord (completed 3 0x02) = 0x00000232#32 ∧
    statusOf (exec .nop { State.reset with status := completed 3 0x02 }) = some 0x00000002#32 := by decide

/-- Section 2.6: the words 0x00000001 and 0xFF000000 complete as IllegalCommand. -/
theorem test_illegal :
    statusOf (step (waiting 0x00000001 0 State.reset)) = some 0x00000042#32 ∧
    statusOf (step (waiting 0xFF000000 0 State.reset)) = some 0x0000FF42#32 := by decide

/-- Section 2.2: XORK 0. -/
theorem test_xork :
    xOf (executeXork 0 { loaded [0x0123456789ABCDEF] [] [] [] [] with x := 0xFFFFFFFFFFFFFFFF }) =
      some 0xFEDCBA9876543210#64 := by decide

/-- Section 2.2: XORK 1 with one key. -/
theorem test_xork_index : statusOf (exec (.xork 1) (loaded [0x0123456789ABCDEF] [] [] [] [])) = some 0x00000162#32 := by
  decide

/-- Section 2.2. -/
theorem test_sub :
    xOf (executeSub tc1 { State.reset with x := 0x0123456789ABCDEF }) = some 0xC56B90AD3EF84712#64 := by decide +kernel

/-- Section 2.2. -/
theorem test_isub : xOf (executeIsub tc1 State.reset) = some 0x5555555555555555#64 := by decide +kernel

/-- Section 2.2. -/
theorem test_perm :
    xOf (executePerm tc1 { State.reset with x := 0x0123456789ABCDEF }) = some 0x00FF0F0F33335555#64 := by decide +kernel

/-- Section 2.2. -/
theorem test_iperm :
    xOf (executeIperm tc1 { State.reset with x := 0x0123456789ABCDEF }) = some 0x3500350F35F035FF#64 := by
  decide +kernel

/-- Section 2.2: one round and the whitening key. -/
theorem test_encb :
    xOf (executeEncb tc1 (loaded [0x0123456789ABCDEF, 0xFEDCBA9876543210] [] [] [] [])) =
      some 0x65AC5BF444B16BB6#64 := by decide +kernel

/-- Section 2.2: ENCB and DECB without keys. -/
theorem test_encb_no_key :
    statusOf (exec .encb State.reset) = some 0x00000662#32 ∧ statusOf (exec .decb State.reset) = some 0x00000762#32 := by
  decide

/-- Section 2.2. -/
theorem test_decb :
    xOf (executeDecb tc1
      { loaded [0x0123456789ABCDEF, 0xFEDCBA9876543210] [] [] [] [] with x := 0x65AC5BF444B16BB6 }) = some 0#64 := by
  decide +kernel

/-- Section 2.1: KEYEXP 0 with empty keys, and KEYEXP 1 with "12" and "34567". -/
theorem test_keyexp :
    rkOf (executeKeyexp tc1 0 State.reset) = .ok [0x46B9DD2B0BA88D13#64] ∧
    rkOf (executeKeyexp tc1 1 (loaded [] [0x31, 0x32] [0x33, 0x34, 0x35, 0x36, 0x37] [] [])) =
      .ok [0xCA260964445F0267#64, 0xC70FF53D5AE45BBA#64] := by decide +kernel

/-- Section 2.1: a letter in K1. -/
theorem test_keyexp_letter :
    statusOf (complete 0x08 State.reset (executeKeyexp tc1 12 (loaded [] [0x31, 0x61] [0x32] [] []))) =
      some 0x00000812#32 := by decide

/-- Section 2.3: the string "1" under "123" and "4567". -/
theorem test_encs :
    sOf (executeEncs tc1 (loaded [] [0x31, 0x32, 0x33] [0x34, 0x35, 0x36, 0x37] [true] [])) =
      .ok (bitsOf 0x008CA4893BCEAF4F) := by decide +kernel

/-- Section 1, E2: the empty string. -/
theorem test_encs_empty :
    sOf (executeEncs tc1 (loaded [] [0x31, 0x32, 0x33] [0x34, 0x35, 0x36, 0x37] [] [])) = .ok [] := by decide +kernel

/-- Section 2.3: the block of "1" with OLEN = 1. -/
theorem test_decs :
    sOf (executeDecs tc1
      { loaded [] [0x31, 0x32, 0x33] [0x34, 0x35, 0x36, 0x37] (bitsOf 0x008CA4893BCEAF4F) [] with olen := 1 }) =
      .ok [true] := by decide +kernel

/-- 42_stream.md R164: a length that is no multiple of 64 is reported before an OLEN beyond it. -/
theorem test_decs_format :
    statusOf (exec .decs { loaded [] [] [] [true] [] with olen := 2 }) = some 0x00001122#32 := by decide

/-- Section 1, E3: "101" under "2". -/
theorem test_pad1 :
    sOf (executePad1 tc1 (loaded [] [0x32] [] [true, false, true] [])) =
      .ok [true, false, false, false, false, false, true, false, false] := by decide +kernel

/-- Section 2.4: 64 ones under "9" with MAX_BITS = 512. -/
theorem test_pad1_overflow :
    statusOf (complete 0x20 State.reset
      (executePad1 { tc1 with bitsStep := 7 } (loaded [] [0x39] [] (List.replicate 64 true) []))) =
      some 0x00002052#32 := by decide +kernel

/-- Section 2.4: padding content is not inspected. -/
theorem test_unpad1 : sOf (executeUnpad1 (loaded [] [0x32] [] [true, true, true] [])) = .ok [true] := by decide

/-- Section 2.4: "1000" under "2" ends inside a group. -/
theorem test_unpad1_format :
    statusOf (exec .unpad1 (loaded [] [0x32] [] [true, false, false, false] [])) = some 0x00002122#32 := by decide

/-- Section 2.5: "10110" under "4567". -/
theorem test_rot :
    shOf (executeRot (loaded [] [] [0x34, 0x35, 0x36, 0x37] [true, false, true, true, false] [])) = .ok [4, 0, 3, 3] := by
  decide +kernel

/-- Section 2.5: "110100" under "12". -/
theorem test_rot_string :
    sOf (executeRot (loaded [] [] [0x31, 0x32] [true, true, false, true, false, false] [])) =
      .ok [false, true, true, false, true, false] := by decide +kernel

/-- Section 2.5: only the length of K2 counts. -/
theorem test_unrot :
    sOf (executeUnrot (loaded [] [] [0x39, 0x39] [false, true, true, false, true, false] [1, 4])) =
      .ok [true, true, false, true, false, false] := by decide +kernel

/-- Section 2.5: one recorded shift where two are expected. -/
theorem test_unrot_length :
    statusOf (exec .unrot (loaded [] [] [0x31, 0x32] [true, true, false, false] [1])) = some 0x00002332#32 := by decide

/-! ## The host interface and the host's own codec -/

/-- Section 2.6: reads of CMD and, after reset, of STATUS. -/
theorem test_read_cmd_status :
    answerOf (hostRead tc1 0x00000 4 State.reset) = some (0x00000, 0) ∧
    answerOf (hostRead tc1 0x00004 4 State.reset) = some (0x00004, 0) := by decide

/-- Section 2.6: a misaligned write and an unmapped read. -/
theorem test_bus_error :
    hostWrite tc1 0x00002 4 7 State.reset = .refused (.busError 0x00002) ∧
    hostRead tc1 0x50000 4 State.reset = .refused (.busError 0x50000) := ⟨rfl, rfl⟩

/-- Section 2.6: a write above MAX_BITS is ignored. -/
theorem test_length_ignored : (writeReg tc1 2049 State.reset .sLen).sLen = 0 := by decide

/-- Section 2.6: a key cell keeps bits 7:0 of the word. -/
theorem test_key_write :
    answerOf (hostRead tc1 0x02000 4 (writeReg tc1 1 (writeReg tc1 0xFFFFFF31 State.reset (.k1Ch 0)) .k1Len)) =
      some (0x02000, 0x00000031#32) := by decide +kernel

/-- Section 2.6: the word 0x82000000 with S_LEN = 7 is "1000001". -/
theorem test_s_write :
    readS (writeReg tc1 7 (writeReg tc1 0x82000000 State.reset (.sW 0)) .sLen) =
      .ok [true, false, false, false, false, false, true] := by decide +kernel

/-- Section 2.6: an unwritten cell below S_LEN. -/
theorem test_unwritten : hostRead tc1 0x10000 4 { State.reset with sLen := 1 } = .fault (.unwrittenRead (.s 0)) := rfl

/-- Section 2.6: a write of X_HI while busy. -/
theorem test_protocol :
    step (asking (.write 0x00008 4 7) (waiting 0 1 State.reset)) = .fault (.protocol 0x00008) := rfl

/-- Section 1, E1. -/
theorem test_codec :
    textToBits [65] = .ok [true, false, false, false, false, false, true] ∧
    bitsToText [true, false, false, false, false, false, true] = .ok [65] := by decide

/-- 30_encoding.md R87: a bare command in lower case, and a host write. -/
theorem test_assembler :
    assembleLine ['x', 'o', 'r', 'k', ' ', '0', 'x', '1', 'F'] = some [.write 0x00000 4 0x011F0000, .poll] ∧
    assembleLine ['W', ' ', '0', 'x', '1', '8', ',', ' ', '7'] = some [.write 0x00018 4 7] := by decide

/-! ## Witnesses: states and operands that meet the hypotheses of each statement -/

theorem asking_next (a : HostAction) (s : State) : HostNext (asking a s) a := rfl

theorem asking_idle (a : HostAction) {s : State} (h : Idle s) : Idle (asking a s) := h

theorem reset_idle : Idle State.reset := ⟨rfl, rfl, rfl⟩

theorem loaded_idle (rk : List Block) (k1 k2 : List Byte) (s : Bits) (sh : List Word) : Idle (loaded rk k1 k2 s sh) :=
  ⟨rfl, rfl, rfl⟩

theorem waiting_waits (w : Word) (l : Nat) (s : State) : Waiting (waiting w (l + 1) s) w := ⟨rfl, rfl, Nat.succ_pos l⟩

theorem digits_0_9 : AllDigits [0x30, 0x39] := by unfold AllDigits; decide

theorem digits_none : AllDigits [] := by intro c hc; cases hc

theorem digits_one : AllDigits [0x31] := by unfold AllDigits; decide

/-- Under the key "1" every bit takes two places. -/
theorem padPos_one (i : Nat) : padPos [0x31] i = 2 * i := by
  induction i with
  | zero => simp [padPos]
  | succ i ih =>
    have h : padDigit [0x31] i = 1 := by simp [padDigit, Nat.mod_one]
    rw [padPos_succ, ih, h]
    omega

theorem maxRounds_byte : (BitVec.ofNat 8 Config.params.maxRounds).toNat = Config.params.maxRounds := by
  have := maxRounds_bounds Config.params
  rw [BitVec.toNat_ofNat]
  exact Nat.mod_eq_of_lt (by omega)

theorem witness_decodeOfEncode : (Instr.keyexp 12).wf tc1 = true ∧ (Instr.xork 255).wf tc1 = true := by decide

theorem witness_encodeOfDecode : decode tc1 0x080C0000 = .ok (.keyexp 12) ∧ decode tc1 0x01FF0000 = .ok (.xork 255) := by
  decide

theorem witness_illegalWordCompletes (w : Word) :
    (waiting w 0 State.reset).pend = some w ∧ (waiting w 0 State.reset).latency = 0 ∧
    IllegalWord Config.params 0x09000000 ∧ IllegalWord Config.params 0xFF000000 ∧
    IllegalWord Config.params 0x00000001 ∧ IllegalWord Config.params 0x01008000 ∧
    IllegalWord Config.params 0x00010000 ∧ IllegalWord Config.params 0x23800000 ∧
    IllegalWord tc1 0x080D0000 ∧ ¬ IllegalWord tc1 0x080C0000 :=
  ⟨rfl, rfl, .inl (by decide), .inl (by decide), .inr (.inl (by decide)), .inr (.inl (by decide)),
    .inr (.inr (.inl (by decide))), .inr (.inr (.inl (by decide))), .inr (.inr (.inr (by decide))),
    by unfold IllegalWord; decide⟩

theorem witness_stepRunsDecodedCommand :
    (waiting 0x080C0000 0 State.reset).pend = some 0x080C0000 ∧ (waiting 0x080C0000 0 State.reset).latency = 0 ∧
    decode Config.params 0x080C0000 = .ok (.keyexp 12) ∧ decode Config.params 0x10000000 = .ok .encs := by
  refine ⟨rfl, rfl, ?_, rfl⟩
  have h : (immField 0x080C0000).toNat ≤ Config.params.maxRounds := (maxRounds_bounds Config.params).1
  have h1 : decode Config.params 0x080C0000 = if (immField 0x080C0000).toNat ≤ Config.params.maxRounds
      then .ok (.keyexp (immField 0x080C0000)) else .error (.rounds (immField 0x080C0000)) := rfl
  rw [h1, if_pos h]
  rfl

/-- A completion with ERR = 6, for the statements about completions and about errors. -/
theorem witness_completion :
    exec .encb State.reset = .next (State.reset.finish 6 0x06) ∧ (State.reset.finish 6 0x06).status.err ≠ 0 ∧
    exec .nop State.reset = .next (State.reset.finish 0 0x00) := ⟨rfl, by decide, rfl⟩

theorem witness_writersOfEachRegister :
    exec .nop State.reset = .next (State.reset.finish 0 0x00) ∧
    Instr.nop.opcode ∉ [0x01#8, 0x02#8, 0x03#8, 0x04#8, 0x05#8, 0x06#8, 0x07#8] ∧
    Instr.nop.opcode ∉ [0x08#8, 0x10#8, 0x11#8] ∧ Instr.nop.opcode ≠ 0x10#8 ∧ Instr.nop.opcode ≠ 0x22#8 ∧
    Instr.nop.opcode ∉ [0x10#8, 0x11#8, 0x20#8, 0x21#8, 0x22#8, 0x23#8] := ⟨rfl, by decide⟩

/-- PAD1 on loaded buffers, and the first index beyond each length. -/
theorem witness_cellsBeyondLength :
    (∃ t, exec .pad1 (loaded [0] [0x31] [0x31] [true] [0]) = .next t) ∧
    (loaded [0] [0x31] [0x31] [true] [0]).k1Len ≤ 1 ∧ (loaded [0] [0x31] [0x31] [true] [0]).k2Len ≤ 1 ∧
    (loaded [0] [0x31] [0x31] [true] [0]).sLen ≤ 1 ∧ (loaded [0] [0x31] [0x31] [true] [0]).shLen ≤ 1 ∧
    (loaded [0] [0x31] [0x31] [true] [0]).nrk ≤ 1 := by
  have h : (pad1From [0x31] 0 [true]).length ≤ Config.params.maxBits := by
    have := maxBits_bounds Config.params
    have h1 : (pad1From [0x31] 0 [true]).length = 2 := by decide
    omega
  exact ⟨⟨_, exec_eq_next.2 (.inl ⟨_, executePad1_eq_ok.2
    ⟨_, _, loaded_k1 .., digits_one, by simp, loaded_s .., h, rfl⟩, rfl⟩)⟩, by decide⟩

theorem witness_xorkResult :
    ((0 : Byte).toNat < (loaded [5] [] [] [] []).nrk ∧ rkCell (loaded [5] [] [] [] []).mem (0 : Byte).toNat = some 5) ∧
    (loaded [5] [] [] [] []).nrk ≤ (1 : Byte).toNat ∧
    ((0 : Byte).toNat < ({ State.reset with nrk := 1 } : State).nrk ∧ rkCell State.reset.mem (0 : Byte).toNat = none) := by
  decide

/-- One round, and no round at all. -/
theorem witness_encbRunsRounds :
    let key : Nat → Block := fun j => [3, 5].getD j 0
    let xs : Nat → Block := fun j =>
      if j = 0 then 0 else perm64 Config.params (sbox64 Config.params (0 ^^^ key 0))
    ((loaded [3, 5] [] [] [] []).nrk = 1 + 1 ∧ (∀ j, j ≤ 1 → rkCell (loaded [3, 5] [] [] [] []).mem j = some (key j)) ∧
      xs 0 = (loaded [3, 5] [] [] [] []).x ∧
      ∀ r, r < 1 → xs (r + 1) = perm64 Config.params (sbox64 Config.params (xs r ^^^ key r))) ∧
    ((loaded [3] [] [] [] []).nrk = 0 + 1 ∧ (∀ j, j ≤ 0 → rkCell (loaded [3] [] [] [] []).mem j = some (key j)) ∧
      xs 0 = (loaded [3] [] [] [] []).x ∧
      ∀ r, r < 0 → xs (r + 1) = perm64 Config.params (sbox64 Config.params (xs r ^^^ key r))) := by
  refine ⟨⟨rfl, by decide, rfl, fun r hr => ?_⟩, rfl, by decide, rfl, fun r hr => absurd hr (Nat.not_lt_zero r)⟩
  obtain rfl : r = 0 := by omega
  simp

theorem witness_decbUndoesRounds :
    let key : Nat → Block := fun j => [3, 5].getD j 0
    let xs : Nat → Block := fun j =>
      if j = 0 then isbox64 Config.params (iperm64 Config.params (0 ^^^ key 1)) ^^^ key 0 else 0 ^^^ key 1
    (loaded [3, 5] [] [] [] []).nrk = 1 + 1 ∧ (∀ j, j ≤ 1 → rkCell (loaded [3, 5] [] [] [] []).mem j = some (key j)) ∧
      xs 1 = (loaded [3, 5] [] [] [] []).x ^^^ key 1 ∧
      ∀ r, r < 1 → xs r = isbox64 Config.params (iperm64 Config.params (xs (r + 1))) ^^^ key r := by
  refine ⟨rfl, by decide, by decide, fun r hr => ?_⟩
  obtain rfl : r = 0 := by omega
  simp

theorem witness_keyIndexErrors : State.reset.nrk ≤ (0 : Byte).toNat ∧ State.reset.nrk = 0 := by decide

theorem witness_blockInverseLaws : ([0] : List Block) ≠ [] := by decide

theorem witness_roundPseudoCommands :
    (0 : Byte).toNat < (loaded [5] [] [] [] []).nrk ∧ rkCell (loaded [5] [] [] [] []).mem (0 : Byte).toNat = some 5 := by
  decide

/-- MAX_ROUNDS rounds, with keys of the lowest and the highest digit and with empty keys. -/
theorem witness_keyexpDerivesKeys :
    (BitVec.ofNat 8 Config.params.maxRounds).toNat ≤ Config.params.maxRounds ∧
    (K1Is (loaded [] [0x30, 0x39] [0x31] [] []) [0x30, 0x39] ∧ AllDigits [0x30, 0x39] ∧
      K2Is (loaded [] [0x30, 0x39] [0x31] [] []) [0x31] ∧ AllDigits [0x31]) ∧
    (K1Is State.reset [] ∧ AllDigits [] ∧ K2Is State.reset []) :=
  ⟨Nat.le_of_eq maxRounds_byte, ⟨loaded_k1 .., digits_0_9, loaded_k2 .., digits_one⟩, loaded_k1 [] [] [] [] [],
    digits_none, loaded_k2 [] [] [] [] []⟩

/-- The split of a seed between the keys: ("09", "1") and ("", "091"). -/
theorem witness_seedCollision :
    (12 : Byte).toNat ≤ Config.params.maxRounds ∧
    (K1Is (loaded [] [0x30, 0x39] [0x31] [] []) [0x30, 0x39] ∧ K2Is (loaded [] [0x30, 0x39] [0x31] [] []) [0x31] ∧
      AllDigits [0x30, 0x39] ∧ AllDigits [0x31]) ∧
    (K1Is (loaded [] [] [0x30, 0x39, 0x31] [] []) [] ∧
      K2Is (loaded [] [] [0x30, 0x39, 0x31] [] []) [0x30, 0x39, 0x31] ∧ AllDigits [] ∧
      AllDigits [0x30, 0x39, 0x31]) ∧
    ([0x30, 0x39] ++ [0x31] : List Byte) = [] ++ [0x30, 0x39, 0x31] ∧
    (∃ t, exec (.keyexp 12) (loaded [] [0x30, 0x39] [0x31] [] []) = .next t) ∧
    ∃ t, exec (.keyexp 12) (loaded [] [] [0x30, 0x39, 0x31] [] []) = .next t := by
  have hn : (12 : Byte).toNat ≤ Config.params.maxRounds := (maxRounds_bounds Config.params).1
  have h0 := digits_none
  have h3 : AllDigits [0x30, 0x39, 0x31] := by unfold AllDigits; decide
  exact ⟨hn, ⟨loaded_k1 .., loaded_k2 .., digits_0_9, digits_one⟩, ⟨loaded_k1 .., loaded_k2 .., h0, h3⟩, rfl,
    ⟨_, exec_eq_next.2 (.inl ⟨_, executeKeyexp_eq_ok.2 ⟨hn, _,
      readSeed_eq_ok.2 ⟨_, _, loaded_k1 .., digits_0_9, loaded_k2 .., digits_one, rfl⟩, rfl⟩, rfl⟩)⟩,
    ⟨_, exec_eq_next.2 (.inl ⟨_, executeKeyexp_eq_ok.2 ⟨hn, _,
      readSeed_eq_ok.2 ⟨_, _, loaded_k1 .., h0, loaded_k2 .., h3, rfl⟩, rfl⟩, rfl⟩)⟩⟩

/-- Operands of ENCS with no bit, and with MAX_BITS bits, for ENCS and for the stream round trip. -/
theorem witness_encs :
    let full : Bits := List.replicate Config.params.maxBits true
    (K1Is (loaded [] [0x30, 0x39] [0x31] full []) [0x30, 0x39] ∧ AllDigits [0x30, 0x39] ∧
      K2Is (loaded [] [0x30, 0x39] [0x31] full []) [0x31] ∧ AllDigits [0x31] ∧
      SIs (loaded [] [0x30, 0x39] [0x31] full []) full ∧
      (loaded [] [0x30, 0x39] [0x31] full []).sLen ≤ Config.params.maxBits) ∧
    SIs (loaded [] [0x30, 0x39] [0x31] [] []) [] :=
  ⟨⟨loaded_k1 .., digits_0_9, loaded_k2 .., digits_one, loaded_s .., by simp [loaded]⟩, loaded_s ..⟩

/-- Operands of DECS with OLEN = S_LEN. -/
theorem witness_decs :
    let s : State := { loaded [] [0x30, 0x39] [0x31] (List.replicate 64 true) [] with olen := 64 }
    K1Is s [0x30, 0x39] ∧ AllDigits [0x30, 0x39] ∧ K2Is s [0x31] ∧ AllDigits [0x31] ∧ SIs s (List.replicate 64 true) ∧
      s.sLen % 64 = 0 ∧ s.olen.toNat ≤ s.sLen :=
  ⟨loaded_k1 .., digits_0_9, loaded_k2 .., digits_one, loaded_s .., rfl, Nat.le_refl 64⟩

/-- A string of 1 bit and one of 65 bits, with equal blocks 0: the first is padded with zeros. -/
theorem witness_blocksAreIndependent :
    let b1 : Bits := [true]
    let b2 : Bits := true :: List.replicate 63 false ++ [true]
    (K1Is (loaded [] [0x31] [] b1 []) [0x31] ∧ K2Is (loaded [] [0x31] [] b1 []) [] ∧
      AllDigits [0x31] ∧ AllDigits [] ∧ K1Is (loaded [] [0x31] [] b2 []) [0x31] ∧ K2Is (loaded [] [0x31] [] b2 []) [] ∧
      SIs (loaded [] [0x31] [] b1 []) b1 ∧ SIs (loaded [] [0x31] [] b2 []) b2) ∧
    (64 * 0 < (loaded [] [0x31] [] b1 []).sLen ∧ 64 * 0 < (loaded [] [0x31] [] b2 []).sLen ∧
      blockOf b1 0 = blockOf b2 0) ∧
    (∃ t, exec .encs (loaded [] [0x31] [] b1 []) = .next t) ∧ ∃ t, exec .encs (loaded [] [0x31] [] b2 []) = .next t := by
  have h0 := digits_none
  refine ⟨⟨loaded_k1 .., loaded_k2 .., digits_one, h0, loaded_k1 .., loaded_k2 .., loaded_s .., loaded_s ..⟩,
    ⟨by decide, by decide, by decide +kernel⟩, ?_, ?_⟩
  · exact ⟨_, exec_eq_next.2 (.inl ⟨_, executeEncs_eq_ok.2 ⟨_, _,
      readSeed_eq_ok.2 ⟨_, _, loaded_k1 .., digits_one, loaded_k2 .., h0, rfl⟩, loaded_s .., rfl⟩, rfl⟩)⟩
  · exact ⟨_, exec_eq_next.2 (.inl ⟨_, executeEncs_eq_ok.2 ⟨_, _,
      readSeed_eq_ok.2 ⟨_, _, loaded_k1 .., digits_one, loaded_k2 .., h0, rfl⟩, loaded_s .., rfl⟩, rfl⟩)⟩

/-- Operands of PAD1 whose result fills S, for PAD1 and for the pad round trip. -/
theorem witness_pad1 :
    let half : Bits := List.replicate (Config.params.maxBits / 2) true
    K1Is (loaded [] [0x31] [] half []) [0x31] ∧ AllDigits [0x31] ∧ ([0x31] : List Byte) ≠ [] ∧
      SIs (loaded [] [0x31] [] half []) half ∧
      padPos [0x31] (loaded [] [0x31] [] half []).sLen ≤ Config.params.maxBits := by
  refine ⟨loaded_k1 .., digits_one, by simp, loaded_s .., ?_⟩
  rw [padPos_one]
  simp [loaded]
  omega

/-- Operands of PAD1 with one bit more. -/
theorem witness_pad1Overflow :
    let more : Bits := List.replicate (Config.params.maxBits / 2 + 1) true
    K1Is (loaded [] [0x31] [] more []) [0x31] ∧ AllDigits [0x31] ∧ ([0x31] : List Byte) ≠ [] ∧
      SIs (loaded [] [0x31] [] more []) more ∧
      Config.params.maxBits < padPos [0x31] (loaded [] [0x31] [] more []).sLen := by
  refine ⟨loaded_k1 .., digits_one, by simp, loaded_s .., ?_⟩
  rw [padPos_one]
  simp [loaded]
  omega

/-- One complete group, its padding bit unwritten. -/
theorem witness_unpad1KeepsRealBits :
    let s : State := { loaded [] [0x31] [] [true] [] with sLen := 2 }
    K1Is s [0x31] ∧ AllDigits [0x31] ∧ ([0x31] : List Byte) ≠ [] ∧ s.sLen = padPos [0x31] [true].length ∧
      ∀ i, i < [true].length → cellGet s.mem.s (padPos [0x31] i) = [true][i]? := by
  refine ⟨loaded_k1 .., digits_one, by simp, by rw [padPos_one]; rfl, fun i hi => ?_⟩
  obtain rfl : i = 0 := by simpa using hi
  rw [padPos_one]
  rfl

/-- A string of two bits, and the empty string. -/
theorem witness_rotRotates :
    let bits : Bits := [true, false]
    let cur : Nat → Bits := fun j => if j = 0 then bits else bits.drop 1 ++ bits.take 1
    (K2Is (loaded [] [] [0x31] bits []) [0x31] ∧ AllDigits [0x31] ∧ ([0x31] : List Byte) ≠ [] ∧
      SIs (loaded [] [] [0x31] bits []) bits ∧ cur 0 = bits ∧
      (∀ j, j < [(0x31 : Byte)].length → cur (j + 1) =
        (cur j).drop (rotShift [0x31] (loaded [] [] [0x31] bits []).sLen j) ++
          (cur j).take (rotShift [0x31] (loaded [] [] [0x31] bits []).sLen j)) ∧
      0 < (loaded [] [] [0x31] bits []).sLen) ∧
    (SIs (loaded [] [] [0x31] [] []) [] ∧ (loaded [] [] [0x31] [] []).sLen = 0) := by
  refine ⟨⟨loaded_k2 .., digits_one, by simp, loaded_s .., rfl, fun j hj => ?_, by decide⟩, loaded_s .., rfl⟩
  obtain rfl : j = 0 := by simpa using hj
  rfl

/-- A string of two bits with the largest shift, and the empty string without shifts. -/
theorem witness_unrotUndoesShifts :
    let bits : Bits := [true, false]
    let s : State := loaded [] [] [0x31] bits [1]
    let cur : Nat → Bits := fun j => if j = 0 then bits.drop 1 ++ bits.take 1 else bits
    (K2Is s [0x31] ∧ AllDigits [0x31] ∧ ([0x31] : List Byte) ≠ [] ∧ ShIs s [1] ∧ SIs s bits ∧
      s.shLen = (if 0 < s.sLen then s.k2Len else 0) ∧ (∀ v ∈ ([1] : List Word), v.toNat < s.sLen) ∧
      cur ([1] : List Word).length = bits ∧
      ∀ j (h : j < ([1] : List Word).length), cur j =
        (cur (j + 1)).drop (s.sLen - ([1] : List Word)[j].toNat) ++
          (cur (j + 1)).take (s.sLen - ([1] : List Word)[j].toNat)) ∧
    (ShIs (loaded [] [] [0x31] [] []) [] ∧ SIs (loaded [] [] [0x31] [] []) [] ∧
      (loaded [] [] [0x31] [] []).shLen =
        (if 0 < (loaded [] [] [0x31] [] []).sLen then (loaded [] [] [0x31] [] []).k2Len else 0)) := by
  refine ⟨⟨loaded_k2 .., digits_one, by simp, loaded_sh .., loaded_s .., by decide,
    fun v hv => by rw [List.mem_singleton.1 hv]; decide, rfl, fun j hj => ?_⟩,
    loaded_sh .., loaded_s .., by decide⟩
  obtain rfl : j = 0 := by simpa using hj
  rfl

theorem witness_rotateRoundTrip :
    let full : Bits := List.replicate Config.params.maxBits true
    K2Is (loaded [] [] [0x31] full []) [0x31] ∧ AllDigits [0x31] ∧ ([0x31] : List Byte) ≠ [] ∧
      SIs (loaded [] [] [0x31] full []) full ∧ (loaded [] [] [0x31] full []).sLen ≤ Config.params.maxBits :=
  ⟨loaded_k2 .., digits_one, by simp, loaded_s .., by simp [loaded]⟩

/-- The characters beside the digits, in K1, in K2 after a valid K1, and the empty key. -/
theorem witness_invalidKeyFormatRaised :
    (12 : Byte).toNat ≤ Config.params.maxRounds ∧
    (K1Is (loaded [] [0x2F] [] [] []) [0x2F] ∧ ¬ AllDigits [0x2F]) ∧
    (K1Is (loaded [] [0x39] [0x3A] [] []) [0x39] ∧ AllDigits [0x39] ∧ K2Is (loaded [] [0x39] [0x3A] [] []) [0x3A] ∧
      ¬ AllDigits [0x3A]) ∧
    (K1Is State.reset [] ∧ State.reset.k1Len = 0) ∧ (K2Is State.reset [] ∧ State.reset.k2Len = 0) := by
  refine ⟨(maxRounds_bounds Config.params).1, ⟨loaded_k1 .., ?_⟩, ⟨loaded_k1 .., ?_, loaded_k2 .., ?_⟩,
    ⟨loaded_k1 [] [] [] [] [], rfl⟩, loaded_k2 [] [] [] [] [], rfl⟩ <;> (unfold AllDigits; decide)

/-- 63 bits for DECS, and a last group one bit short for UNPAD1. -/
theorem witness_formatErrorRaised :
    (K1Is (loaded [] [0x31] [] (List.replicate 63 true) []) [0x31] ∧ AllDigits [0x31] ∧
      K2Is (loaded [] [0x31] [] (List.replicate 63 true) []) [] ∧ AllDigits [] ∧
      (loaded [] [0x31] [] (List.replicate 63 true) []).sLen % 64 ≠ 0) ∧
    (K1Is (loaded [] [0x31] [] [true, true, true] []) [0x31] ∧ ([0x31] : List Byte) ≠ [] ∧
      padPos [0x31] 1 < (loaded [] [0x31] [] [true, true, true] []).sLen ∧
      (loaded [] [0x31] [] [true, true, true] []).sLen < padPos [0x31] (1 + 1) ∧
      ∀ i, i < 1 → (cellGet (loaded [] [0x31] [] [true, true, true] []).mem.s (padPos [0x31] i)).isSome) := by
  refine ⟨⟨loaded_k1 .., digits_one, loaded_k2 .., digits_none, by decide +kernel⟩,
    loaded_k1 .., by simp, ?_, ?_, fun i hi => ?_⟩
  · rw [padPos_one]; decide
  · rw [padPos_one]; decide
  · obtain rfl : i = 0 := by omega
    rw [padPos_one]
    rfl

/-- OLEN one above S_LEN, one shift too few, and a shift equal to S_LEN. -/
theorem witness_lengthMismatchRaised :
    let a : State := { loaded [] [0x31] [0x31] (List.replicate 64 true) [] with olen := 65 }
    let b : State := loaded [] [] [0x31] [true] []
    let c : State := loaded [] [] [0x31] [true] [1]
    (K2Is a [0x31] ∧ AllDigits [0x31] ∧ K1Is a [0x31] ∧ a.sLen % 64 = 0 ∧ a.sLen < a.olen.toNat) ∧
    (K2Is b [0x31] ∧ b.shLen ≠ (if 0 < b.sLen then b.k2Len else 0)) ∧
    (K2Is c [0x31] ∧ c.shLen = (if 0 < c.sLen then c.k2Len else 0) ∧ ShIs c [1] ∧
      ∃ v ∈ ([1] : List Word), c.sLen ≤ v.toNat) :=
  ⟨⟨loaded_k2 .., digits_one, loaded_k1 .., rfl, Nat.lt_succ_self 64⟩, ⟨loaded_k2 .., by decide⟩,
    loaded_k2 .., by decide, loaded_sh .., 1, by simp, by decide⟩

/-- An idle core and a busy one, about to be accessed: for every statement about one host access. -/
theorem witness_hostAccess (a : HostAction) (w : Word) :
    (Idle (asking a State.reset) ∧ HostNext (asking a State.reset) a) ∧
    (Waiting (asking a (waiting w 1 State.reset)) w ∧ HostNext (asking a (waiting w 1 State.reset)) a ∧
      0 < (asking a (waiting w 1 State.reset)).latency) :=
  ⟨⟨reset_idle, rfl⟩, waiting_waits w 0 State.reset, rfl, Nat.one_pos⟩

theorem witness_readsHaveNoSideEffect :
    HostNext (asking (.read 0x00004 4) State.reset) (.read 0x00004 4) ∧ State.reset.pend = none ∧
    (∃ t, step (asking (.read 0x00004 4) State.reset) = .next t) ∧
    ∃ t, step (asking (.read 0x00004 4) (waiting 0 1 State.reset)) = .next t := ⟨rfl, rfl, ⟨_, rfl⟩, _, rfl⟩

theorem witness_busyAccessFaults : ¬ ((0x00004 : Addr) = 0x00004#20 ∧ 2 = 4) ∧ ¬ ((0x00000 : Addr) = 0x00004#20 ∧ 4 = 4) := by
  decide

theorem witness_badAccessRefused : (2 ≠ 4 ∨ (0x00000 : Addr).toNat % 4 ≠ 0) ∧ (4 ≠ 4 ∨ (0xFFFFF : Addr).toNat % 4 ≠ 0) := by
  decide

/-- The first word after the CAP registers, the first after the largest S window, and the last of the space. -/
theorem witness_unmappedAccessRefused :
    (0x00034 : Addr).toNat % 4 = 0 ∧ ¬ Mapped Config.params (0x00034 : Addr).toNat ∧
    (0x50000 : Addr).toNat % 4 = 0 ∧ ¬ Mapped Config.params (0x50000 : Addr).toNat ∧
    (0xFFFFC : Addr).toNat % 4 = 0 ∧ ¬ Mapped Config.params (0xFFFFC : Addr).toNat := by
  have hb := maxBits_bounds Config.params
  have hk := maxKey_bounds Config.params
  have hr := maxRounds_bounds Config.params
  have h1 : (0x00034 : Addr).toNat = 0x34 := rfl
  have h2 : (0x50000 : Addr).toNat = 0x50000 := rfl
  have h3 : (0xFFFFC : Addr).toNat = 0xFFFFC := rfl
  rw [h1, h2, h3]
  unfold Mapped
  refine ⟨by decide, ?_, by decide, ?_, by decide, ?_⟩ <;>
    (rintro (h | ⟨j, hj, h⟩ | ⟨j, hj, h⟩ | ⟨j, hj, h⟩) <;> omega)

/-- The lengths an idle core can hold are below 2^32. -/
theorem witness_lengthRegisters :
    Config.params.maxBits < 2 ^ 32 ∧ Config.params.maxKey < 2 ^ 32 ∧ Config.params.maxRounds + 1 < 2 ^ 32 ∧
    (0x00018#20, State.reset.sLen) ∈ [(0x00010#20, State.reset.nrk), (0x00014#20, State.reset.olen.toNat),
      (0x00018#20, State.reset.sLen), (0x0001C#20, State.reset.shLen), (0x00020#20, State.reset.k1Len),
      (0x00024#20, State.reset.k2Len)] ∧
    (HostNext (asking (.write 0x00010 4 1) State.reset) (.write 0x00010 4 1) ∧
      (1 : Word).toNat ≤ Config.params.maxRounds + 1 ∧ 0 < (1 : Word).toNat ∧ rkCell State.reset.mem 0 = none) := by
  have hb := maxBits_bounds Config.params
  have hk := maxKey_bounds Config.params
  have hr := maxRounds_bounds Config.params
  exact ⟨by omega, by omega, by omega, by simp, rfl, Nat.le_add_left 1 _, by decide, rfl⟩

theorem witness_capRegisters :
    (0x00028#20, Config.params.maxBits) ∈ [(0x00028#20, Config.params.maxBits), (0x0002C#20, Config.params.maxKey),
      (0x00030#20, Config.params.maxRounds)] ∧
    (0x00030#20, Config.params.maxRounds) ∈ [(0x00028#20, Config.params.maxBits), (0x0002C#20, Config.params.maxKey),
      (0x00030#20, Config.params.maxRounds)] := by simp

/-- The last index of every window. -/
theorem witness_windowIndices :
    Config.params.maxRounds ≤ Config.params.maxRounds ∧ Config.params.maxKey - 1 < Config.params.maxKey ∧
    Config.params.maxBits / 32 - 1 < Config.params.maxBits / 32 := by
  have hb := maxBits_bounds Config.params
  have hk := maxKey_bounds Config.params
  exact ⟨Nat.le_refl _, by omega, by omega⟩

/-- A word of S whose first bit alone is below S_LEN. -/
theorem witness_bitStringWindowRead :
    ∀ k, k < 32 → 32 * 0 + k < (loaded [] [] [] [true] []).sLen →
      cellGet (loaded [] [] [] [true] []).mem.s (32 * 0 + k) = some ((fun _ => true) k) := by
  intro k _ h
  obtain rfl : k = 0 := by simp [loaded] at h; omega
  rfl

/-- A written cell below each length, an unwritten one below it, and one at it. -/
theorem witness_windowReads :
    let s : State := loaded [7] [0x31] [0x32] [true] [9]
    let u : State := { State.reset with nrk := 1, k1Len := 1, k2Len := 1, sLen := 1, shLen := 1 }
    (0 < s.k1Len ∧ cellGet s.mem.k1 0 = some 0x31) ∧ (0 < s.k2Len ∧ cellGet s.mem.k2 0 = some 0x32) ∧
    (0 < s.shLen ∧ cellGet s.mem.sh 0 = some 9) ∧ (0 < s.nrk ∧ rkCell s.mem 0 = some 7) ∧
    (0 < u.k1Len ∧ cellGet u.mem.k1 0 = none) ∧ (0 < u.k2Len ∧ cellGet u.mem.k2 0 = none) ∧
    (0 < u.shLen ∧ cellGet u.mem.sh 0 = none) ∧ (0 < u.nrk ∧ rkCell u.mem 0 = none) ∧
    (s.k1Len ≤ 1 ∧ s.k2Len ≤ 1 ∧ s.shLen ≤ 1 ∧ s.nrk ≤ 1) := by decide

/-- Bit 31 of word 0 is the first unwritten one below S_LEN. -/
theorem witness_unwrittenBitsFault :
    let s : State := { loaded [] [] [] (List.replicate 31 true) [] with sLen := 32 }
    0 < Config.params.maxBits / 32 ∧ 31 < 32 ∧ 32 * 0 + 31 < s.sLen ∧ cellGet s.mem.s (32 * 0 + 31) = none ∧
      ∀ i, i < 31 → (cellGet s.mem.s (32 * 0 + i)).isSome := by
  have hb := maxBits_bounds Config.params
  exact ⟨by omega, by decide, by decide, by decide +kernel, by decide +kernel⟩

/-- For each operand, a cell that is the first unwritten one below its length, the operands before it being valid; for
DECS one below OLEN and one beyond it. -/
theorem witness_commandsFaultOnUnwrittenCells :
    let r : State := { State.reset with nrk := 1, k1Len := 1 }
    let q : State := { State.reset with k2Len := 1 }
    let p : State := { loaded [] [0x31] [] [] [] with sLen := 2 }
    let s : State := { loaded [] [0x31] [0x31] [true] [0] with sLen := 2 }
    let d : State := { loaded [] [0x31] [0x31] [true] [] with sLen := 64, olen := 64 }
    let e : State := { d with olen := 0 }
    let h : State := { loaded [] [] [0x31] [true] [] with shLen := 1 }
    ((12 : Byte).toNat ≤ Config.params.maxRounds ∧ 0 < r.nrk ∧ rkCell r.mem 0 = none) ∧
    (0 < r.k1Len ∧ cellGet r.mem.k1 0 = none) ∧
    (0 < q.k2Len ∧ cellGet q.mem.k2 0 = none ∧ K1Is q [] ∧ AllDigits []) ∧
    (1 < s.sLen ∧ cellGet s.mem.s 1 = none ∧ (∀ i, i < 1 → (cellGet s.mem.s i).isSome) ∧ K1Is s [0x31] ∧
      AllDigits [0x31] ∧ K2Is s [0x31] ∧ s.shLen = s.k2Len ∧ ShIs s [0] ∧
      ∀ v ∈ ([0] : List Word), v.toNat < s.sLen) ∧
    (1 < d.sLen ∧ cellGet d.mem.s 1 = none ∧ d.sLen % 64 = 0 ∧ d.olen.toNat ≤ d.sLen ∧ K1Is d [0x31] ∧ K2Is d [0x31]) ∧
    (e.olen.toNat ≤ 1 ∧ 1 < e.sLen ∧ cellGet e.mem.s 1 = none ∧ e.olen.toNat ≤ e.sLen ∧ K1Is e [0x31] ∧
      K2Is e [0x31]) ∧
    (0 < h.sLen ∧ h.shLen = h.k2Len ∧ K2Is h [0x31] ∧ 0 < h.shLen ∧ cellGet h.mem.sh 0 = none) ∧
    (padPos [0x31] (0 + 1) ≤ p.sLen ∧ K1Is p [0x31] ∧ cellGet p.mem.s (padPos [0x31] 0) = none) := by
  refine ⟨⟨(maxRounds_bounds Config.params).1, by decide, by decide⟩, by decide,
    ⟨by decide, by decide, loaded_k1 [] [] [] [] [], digits_none⟩,
    ⟨by decide, by decide, by decide, loaded_k1 .., digits_one, loaded_k2 .., rfl, loaded_sh ..,
      fun v hv => by rw [List.mem_singleton.1 hv]; decide⟩,
    ⟨by decide, by decide, by decide, by decide, loaded_k1 .., loaded_k2 ..⟩,
    ⟨by decide, by decide, by decide, by decide, loaded_k1 .., loaded_k2 ..⟩,
    ⟨by decide, rfl, loaded_k2 .., by decide, by decide⟩, ?_, loaded_k1 .., ?_⟩
  · exact Nat.le_of_eq (padPos_one 1)
  · rw [padPos_one]; rfl

/-- Reset of an idle and of a busy core, and a command word after it. -/
theorem witness_resetInput :
    (asking .rst State.reset).pend = none ∧ HostNext (asking .rst State.reset) .rst ∧
    0 < (asking .rst (waiting 0 1 State.reset)).latency ∧ HostNext (asking .rst (waiting 0 1 State.reset)) .rst ∧
    HostNext { State.reset with hostProgram := [.rst, .write 0x00000 4 0], hostIndex := 1 } (.write 0x00000 4 0) :=
  ⟨rfl, rfl, Nat.one_pos, rfl, rfl⟩

/-- Any pending word, at any latency: with a host that polls at once, one that does nothing, one that reads STATUS and
then polls, and one that still reads when the latency is over. Of the words one is legal and one is not. -/
theorem witness_pendingWordReachesCompletion (w : Word) (l : Nat) :
    let s := asking (.read 0x00004 4) (waiting w l State.reset)
    let p : State := { s with hostProgram := [.read 0x00004 4, .poll] }
    (s.pend = some w ∧ s.status.busy = true ∧ (∀ k, k < 1 → s.hostProgram[s.hostIndex + k]? = some (.read 0x00004 4)) ∧
      s.hostProgram[s.hostIndex + 1]? = none ∧ (waiting w 1 s).latency ≤ 1) ∧
    (p.pend = some w ∧ p.status.busy = true ∧ (∀ k, k < 1 → p.hostProgram[p.hostIndex + k]? = some (.read 0x00004 4)) ∧
      p.hostProgram[p.hostIndex + 1]? = some .poll) ∧
    (asking .poll s).hostProgram[(asking .poll s).hostIndex + 0]? = some .poll ∧
    decode Config.params 0 = .ok .nop ∧ IllegalWord Config.params 0x09000000 :=
  ⟨⟨rfl, rfl, fun k hk => by rw [Nat.lt_one_iff.1 hk]; rfl, rfl, Nat.le_refl 1⟩,
    ⟨rfl, rfl, fun k hk => by rw [Nat.lt_one_iff.1 hk]; rfl, rfl⟩, rfl, rfl, .inl (by decide)⟩

/-- A state with loaded operands meets the invariant, and a step from it answers a next state. -/
theorem witness_stepKeepsInvariant :
    Inv Config.params (asking .poll (loaded [7] [0x31] [0x32] [true] [9])) ∧
    ∃ t, step (asking .poll (loaded [7] [0x31] [0x32] [true] [9])) = .next t := by
  have hb := maxBits_bounds Config.params
  have hk := maxKey_bounds Config.params
  have hr := maxRounds_bounds Config.params
  refine ⟨?_, _, rfl⟩
  constructor
  · decide
  all_goals simp [asking, loaded, cellsFrom, State.reset]
  all_goals omega

theorem witness_codecRoundTrip :
    (∀ c ∈ [0, 127], c ≤ 127) ∧ (∃ c ∈ [128], 127 < c) ∧ ([true] : Bits).length % 7 ≠ 0 ∧
    (List.replicate 6 true).length % 7 ≠ 0 := by decide

theorem witness_blockViewOfBitString : (0 : Nat) < 64 ∧ (63 : Nat) < 64 := by decide

end Sys2Proof.Tests
end

/-! PROOF. What a command does depends on no earlier STATUS, PEND, latency or host state (00_scope.md R19,
45_control.md R224). -/
namespace Sys2Proof.Machine

/-- `s` with the fields that no command reads taken from `c`: STATUS, PEND, the latency and the host's. -/
def State.withContextOf (s c : State) : State :=
  { s with
    status := c.status
    pend := c.pend
    latency := c.latency
    hostProgram := c.hostProgram
    hostIndex := c.hostIndex
    hostReads := c.hostReads }

/-- The pseudocode of a command answers the same in every context and carries the context over: once the new context
is moved past each operand read and check, none of which sees it, it is left at the final commit alone. -/
theorem execute_withContextOf (i : Instr) (s c : State) :
    execute i (s.withContextOf c) = (·.withContextOf c) <$> execute i s := by
  cases i with
  | nop | sub | isub | perm | iperm => rfl
  | xork | encb | decb | keyexp | encs | decs | pad1 | unpad1 | rot | unrot =>
    simp only [execute, executeXork, executeEncb, executeDecb, executeKeyexp, executeEncs, executeDecs, executePad1,
      executeUnpad1, executeRot, executeUnrot, map_bind, map_pure]
    rfl

/-- Settles O10: the pseudocode carries the context over, and a completion writes STATUS and PEND whatever they were. -/
theorem commandDependsOnlyOnCore : Obligations.CommandDependsOnlyOnCore := by
  unfold Obligations.CommandDependsOnlyOnCore
  intro i s st p l hi hp hr
  change exec i (s.withContextOf
    { s with status := st, pend := p, latency := l, hostProgram := hp, hostIndex := hi, hostReads := hr }) = _
  rw [exec_eq_complete, exec_eq_complete i s, execute_withContextOf]
  obtain (error | cell) | t := execute i s
  · rfl
  · rfl
  · rfl

end Sys2Proof.Machine

/-! PROOF. What a commit can be: one inversion lemma for the pseudocode of all the commands. -/
namespace Sys2Proof.Machine

/-- `CommitOf i s t`: the commit of command `i` on state `s` can be `t`. Each constructor names the commands that commit
so, and says that a legal length is followed by a legal one. -/
inductive CommitOf (i : Instr) (s : State) : State → Prop where
  /-- NOP writes nothing (45_control.md R220). -/
  | nothing : CommitOf i s s
  /-- The round engine writes X (41_round_engine.md R125 to R131). -/
  | block (x : Block) (hi : i.opcode ∈ [0x01#8, 0x02#8, 0x03#8, 0x04#8, 0x05#8, 0x06#8, 0x07#8]) :
      CommitOf i s { s with x := x }
  /-- KEYEXP writes RK and NRK (40_key_schedule.md R103). -/
  | keys (rk : List Block) (hi : i.opcode = 0x08#8) (hrk : rk.length ≤ Config.params.maxRounds + 1) :
      CommitOf i s (s.commitRk rk)
  /-- ENCS and DECS write S, RK and their lengths; OLEN is written by ENCS alone (42_stream.md R163, R164). -/
  | stream (bits : Bits) (o : Word) (rk : List Block) (hi : i.opcode ∈ [0x10#8, 0x11#8])
      (ho : i.opcode ≠ 0x10#8 → o = s.olen)
      (hbits : s.sLen ≤ Config.params.maxBits → bits.length ≤ Config.params.maxBits)
      (hrk : rk.length ≤ Config.params.maxRounds + 1) :
      CommitOf i s (({ s.commitS bits with olen := o } : State).commitRk rk)
  /-- PAD1, UNPAD1 and UNROT write S and S_LEN (43_pad.md R182, R183; 44_rotate.md R204). -/
  | string (bits : Bits) (hi : i.opcode ∈ [0x20#8, 0x21#8, 0x23#8])
      (hbits : s.sLen ≤ Config.params.maxBits → bits.length ≤ Config.params.maxBits) :
      CommitOf i s (s.commitS bits)
  /-- ROT writes S and SH with their lengths (44_rotate.md R203). -/
  | rotation (bits : Bits) (sh : List Word) (hi : i.opcode = 0x22#8)
      (hbits : s.sLen ≤ Config.params.maxBits → bits.length ≤ Config.params.maxBits)
      (hsh : s.k2Len ≤ Config.params.maxKey → sh.length ≤ Config.params.maxKey) :
      CommitOf i s ((s.commitS bits).commitSh sh)

/-- The 13 keys of the stream commands fit in RK. -/
theorem length_streamKeys_le (P : Params) (m : List Byte) :
    (expandKey P m Config.streamRounds).length ≤ P.maxRounds + 1 := by
  have := (maxRounds_bounds P).1
  simpa [Config.streamRounds] using this

/-- Filling the last block up does not overflow S, whose capacity is a whole number of blocks (42_stream.md R160). -/
theorem blockCount_le_maxBits {P : Params} {n : Nat} (h : n ≤ P.maxBits) : 64 * blockCount n ≤ P.maxBits := by
  have := (maxBits_bounds P).2.2
  unfold blockCount
  omega

/-- Every command commits in one of these ways. -/
theorem commitOf_of_execute {i : Instr} {s t : State} (h : execute i s = .ok t) : CommitOf i s t := by
  cases i with
  | nop =>
    obtain rfl : s = t := Except.ok.inj h
    exact .nothing
  | sub | isub | perm | iperm =>
    obtain rfl := Except.ok.inj h
    exact .block _ (by decide)
  | xork r =>
    obtain ⟨-, k, -, rfl⟩ := executeXork_eq_ok.1 h
    exact .block _ (by simp [Instr.opcode])
  | encb =>
    obtain ⟨-, rk, -, rfl⟩ := executeEncb_eq_ok.1 h
    exact .block _ (by decide)
  | decb =>
    obtain ⟨-, rk, -, rfl⟩ := executeDecb_eq_ok.1 h
    exact .block _ (by decide)
  | keyexp n =>
    obtain ⟨hn, m, -, rfl⟩ := executeKeyexp_eq_ok.1 h
    exact .keys _ rfl (by simpa using hn)
  | encs =>
    obtain ⟨m, bits, -, ⟨hl, -⟩, rfl⟩ := executeEncs_eq_ok.1 h
    exact .stream _ _ _ (by decide) (absurd rfl) (fun hs => by simpa [hl] using blockCount_le_maxBits hs)
      (length_streamKeys_le _ m)
  | decs =>
    obtain ⟨m, bits, -, -, ho, -, rfl⟩ := executeDecs_eq_ok.1 h
    exact .stream _ s.olen _ (by decide) (fun _ => rfl) (fun hs => by rw [length_decStream]; omega)
      (length_streamKeys_le _ m)
  | pad1 =>
    obtain ⟨k, bits, -, -, -, -, hl, rfl⟩ := executePad1_eq_ok.1 h
    exact .string _ (by decide) fun _ => hl
  | unpad1 =>
    obtain ⟨k, u, -, -, -, hu, rfl⟩ := executeUnpad1_eq_ok.1 h
    have := length_unpad1From hu
    exact .string _ (by decide) fun hs => by omega
  | rot =>
    obtain ⟨k, bits, ⟨hk, -⟩, -, -, ⟨hl, -⟩, rfl⟩ := executeRot_eq_ok.1 h
    have := length_rotFrom_snd_le k 1 bits
    exact .rotation _ _ rfl (fun hs => by simpa [hl] using hs) fun hs => by rw [List.length_map]; omega
  | unrot =>
    obtain ⟨k, sh, bits, -, -, -, -, -, -, ⟨hl, -⟩, rfl⟩ := executeUnrot_eq_ok.1 h
    exact .string _ (by decide) fun hs => by simpa [hl] using hs

/-- Everything a command that answers a next state can be: a commit of one of these ways, or an error, which commits
nothing; then STATUS gets a legal code and PEND becomes none. -/
theorem commitOf_of_exec {i : Instr} {s t : State} (h : exec i s = .next t) :
    ∃ u code, CommitOf i s u ∧ code.toNat ≤ 6 ∧ t = u.finish code i.opcode := by
  obtain ⟨u, hu, rfl⟩ | ⟨e, -, rfl⟩ := exec_eq_next.1 h
  · exact ⟨u, 0, commitOf_of_execute hu, by decide, rfl⟩
  · exact ⟨s, errCode e, .nothing, (errCode_legal e).1, rfl⟩

end Sys2Proof.Machine

/-! PROOF. Every operation on the state keeps the invariant, and so does every step (10_state.md R21 to R30). -/
namespace Sys2Proof.Machine

/-- A commit lists no index that was not listed and is not below the new length. -/
theorem cellCommit_indices {α : Type} {p : Nat → Prop} {free : Nat → α} {vs : List α} {b : Buffer α}
    (hb : ∀ c ∈ b, p c.1) (hv : ∀ j, j < vs.length → p j) : ∀ c ∈ cellCommit free vs b, p c.1 := by
  intro c hc
  obtain h | ⟨d, hd, h⟩ := mem_cellCommit hc
  · exact hv _ h
  · exact h ▸ hb d hd

/-- A write lists no new index but its own. -/
theorem cellSet_indices {α : Type} {p : Nat → Prop} {i : Nat} {v : α} {b : Buffer α} (hb : ∀ c ∈ b, p c.1) (hi : p i) :
    ∀ c ∈ cellSet i v b, p c.1 := by
  intro c hc
  obtain h | h := mem_cellSet hc
  · exact h ▸ hi
  · exact hb c h

/-- A write of S_W[w] lists no new index but those of its word. -/
theorem writeSWord_indices {p : Nat → Prop} {w : Nat} {v : Word} {b : Buffer Bool} (hb : ∀ c ∈ b, p c.1)
    (hw : ∀ k, k < 32 → p (32 * w + k)) : ∀ c ∈ writeSWord w v b, p c.1 :=
  List.foldlRecOn (motive := fun acc : Buffer Bool => ∀ c ∈ acc, p c.1) (List.range 32) _ hb fun _ hacc k hk =>
    cellSet_indices hacc (hw k (List.mem_range.1 hk))

section operations

variable {P : Params} {s : State}

theorem Inv.withX (h : Inv P s) (x : Block) : Inv P { s with x := x } := { h with }

theorem Inv.withOlen (h : Inv P s) (o : Word) : Inv P { s with olen := o } := { h with }

theorem Inv.withS (h : Inv P s) {b : Buffer Bool} (hb : Rising b) (hin : ∀ c ∈ b, c.1 < P.maxBits) :
    Inv P { s with mem := { s.mem with s := b } } :=
  have ⟨hHi, hLo, hK1, hK2, _, hSh⟩ := h.memWf
  { h with
    memWf := ⟨hHi, hLo, hK1, hK2, hb, hSh⟩
    sIn := hin }

theorem Inv.commitS (h : Inv P s) {bits : Bits} (hl : bits.length ≤ P.maxBits) : Inv P (s.commitS bits) :=
  { h with
    memWf := commitS_wf bits h.memWf
    sIn := cellCommit_indices h.sIn fun _ hj => Nat.lt_of_lt_of_le hj hl
    sLe := hl }

theorem Inv.commitRk (h : Inv P s) {rk : List Block} (hl : rk.length ≤ P.maxRounds + 1) : Inv P (s.commitRk rk) :=
  { h with
    memWf := commitRk_wf rk h.memWf
    rkHiIn := cellCommit_indices (p := (· ≤ P.maxRounds)) h.rkHiIn fun j hj => by rw [List.length_map] at hj; omega
    rkLoIn := cellCommit_indices (p := (· ≤ P.maxRounds)) h.rkLoIn fun j hj => by rw [List.length_map] at hj; omega
    nrkLe := hl }

theorem Inv.commitSh (h : Inv P s) {sh : List Word} (hl : sh.length ≤ P.maxKey) : Inv P (s.commitSh sh) :=
  { h with
    memWf := commitSh_wf sh h.memWf
    shIn := cellCommit_indices h.shIn fun _ hj => Nat.lt_of_lt_of_le hj hl
    shLe := hl }

theorem Inv.finish (h : Inv P s) (hl : s.latency = 0) {code : BitVec 4} (hc : code.toNat ≤ 6) (opc : Byte) :
    Inv P (s.finish code opc) :=
  { h with
    busyPend := rfl
    busyNotDone := nofun
    errLegal := hc
    idleLatency := fun _ => hl }

theorem Inv.accept (h : Inv P s) (v : Word) : Inv P (s.accept v) :=
  { h with
    busyPend := rfl
    busyNotDone := fun _ => rfl
    idleLatency := nofun }

theorem Inv.advance (h : Inv P s) : Inv P s.advance := { h with }

theorem Inv.record (h : Inv P s) (a : Addr) (v : Word) : Inv P (s.record a v) := { h with }

theorem Inv.tick (h : Inv P s) : Inv P s.tick :=
  { h with idleLatency := fun hp => by rw [tick_latency, h.idleLatency hp] }

theorem inv_reset (P : Params) : Inv P State.reset where
  memWf := reset_mem_wf
  rkHiIn := nofun
  rkLoIn := nofun
  k1In := nofun
  k2In := nofun
  sIn := nofun
  shIn := nofun
  nrkLe := Nat.zero_le _
  k1Le := Nat.zero_le _
  k2Le := Nat.zero_le _
  sLe := Nat.zero_le _
  shLe := Nat.zero_le _
  busyPend := rfl
  busyNotDone := nofun
  errLegal := Nat.zero_le _
  idleLatency := fun _ => rfl

theorem inv_rst (P : Params) (s : State) : Inv P s.rst := { inv_reset P with }

end operations

section hostBus

variable {P : Params} {s t : State}

/-- The cells of a window word are within the capacity of its buffer (20_memory.md R53). -/
def Reg.InCapacity (P : Params) : Reg → Prop
  | .rkHi j | .rkLo j => j ≤ P.maxRounds
  | .k1Ch j | .k2Ch j | .shW j => j < P.maxKey
  | .sW w => 32 * w < P.maxBits
  | _ => True

/-- The register map reaches no cell beyond a capacity. -/
theorem inCapacity_of_regAt {a : Nat} : ∀ r ∈ regAt P a, r.InCapacity P := by
  unfold regAt
  -- one case for each line of the map
  repeat' refine iteInduction (motive := fun o => ∀ r ∈ o, Reg.InCapacity P r) (fun _ => ?_) fun _ => ?_
  all_goals rintro _ ⟨⟩
  all_goals simp only [Reg.InCapacity]
  all_goals omega

theorem inCapacity_of_accessReg {a : Addr} {bytes : Nat} {r : Reg} (h : accessReg P a bytes = some r) :
    r.InCapacity P := by
  unfold accessReg at h
  split at h
  · exact inCapacity_of_regAt r h
  · cases h

/-- A host write keeps the invariant: a length register ignores an illegal value, and a window holds no cell beyond its
buffer's capacity. -/
theorem Inv.writeReg (h : Inv P s) (v : Word) {r : Reg} (hr : r.InCapacity P) : Inv P (writeReg P v s r) := by
  have hwf := writeReg_wf P v r h.memWf
  cases r with
  | cmd => exact h.accept v
  | status | capMaxBits | capMaxKey | capMaxRounds => exact h
  | xHi | xLo => exact h.withX _
  | olen => exact h.withOlen v
  | nrk => exact iteInduction (fun hv => { h with nrkLe := hv }) fun _ => h
  | sLen => exact iteInduction (fun hv => { h with sLe := hv }) fun _ => h
  | shLen => exact iteInduction (fun hv => { h with shLe := hv }) fun _ => h
  | k1Len => exact iteInduction (fun hv => { h with k1Le := hv }) fun _ => h
  | k2Len => exact iteInduction (fun hv => { h with k2Le := hv }) fun _ => h
  | rkHi j => exact { h with memWf := hwf, rkHiIn := cellSet_indices (p := (· ≤ P.maxRounds)) h.rkHiIn hr }
  | rkLo j => exact { h with memWf := hwf, rkLoIn := cellSet_indices (p := (· ≤ P.maxRounds)) h.rkLoIn hr }
  | k1Ch j => exact { h with memWf := hwf, k1In := cellSet_indices (p := (· < P.maxKey)) h.k1In hr }
  | k2Ch j => exact { h with memWf := hwf, k2In := cellSet_indices (p := (· < P.maxKey)) h.k2In hr }
  | shW j => exact { h with memWf := hwf, shIn := cellSet_indices (p := (· < P.maxKey)) h.shIn hr }
  | sW w =>
    have hw : 32 * w < P.maxBits := hr
    have := (maxBits_bounds P).2.2
    obtain ⟨-, -, -, -, hs, -⟩ := h.memWf
    exact h.withS (writeSWord_rising w v hs)
      (writeSWord_indices (p := (· < P.maxBits)) h.sIn fun k hk => by omega)

/-- A host read that answers changes only what the host has read. -/
theorem hostRead_eq_next {a : Addr} {bytes : Nat} (h : hostRead P a bytes s = .next t) :
    ∃ v, t = (s.record a v).advance := by
  unfold hostRead at h
  split at h
  · cases h
  · split at h
    · cases h
    · split at h
      · cases h
      · exact ⟨_, (Host.Outcome.next.inj h).symm⟩

/-- A host write that answers writes a register of the register map. -/
theorem hostWrite_eq_next {a : Addr} {bytes : Nat} {v : Word} (h : hostWrite P a bytes v s = .next t) :
    ∃ r, accessReg P a bytes = some r ∧ t = (writeReg P v s r).advance := by
  unfold hostWrite at h
  split at h
  · cases h
  · split at h
    · cases h
    · next r hr => exact ⟨r, hr, (Host.Outcome.next.inj h).symm⟩

theorem Inv.hostPoll (h : Inv P s) (ht : hostPoll s = .next t) : Inv P t := by
  unfold Machine.hostPoll at ht
  split at ht
  · cases ht
    exact h.record _ _
  · cases ht
    exact (h.record _ _).advance

/-- Every action of the host keeps the invariant. -/
theorem Inv.hostAct (h : Inv P s) {a : HostAction} (ht : hostAct P s a = .next t) : Inv P t := by
  cases a with
  | write a bytes v =>
    obtain ⟨r, hr, rfl⟩ := hostWrite_eq_next ht
    exact (h.writeReg v (inCapacity_of_accessReg hr)).advance
  | read a bytes =>
    obtain ⟨v, rfl⟩ := hostRead_eq_next ht
    exact (h.record a v).advance
  | poll => exact h.hostPoll ht
  | rst =>
    cases ht
    exact (inv_rst P s).advance

theorem Inv.hostStep (h : Inv P s) (ht : hostStep P s = .next t) : Inv P t := by
  unfold Machine.hostStep at ht
  split at ht
  · cases ht
    exact h.tick
  · exact h.tick.hostAct ht

end hostBus

section completion

variable {i : Instr} {s t : State}

/-- Every commit keeps the invariant: its lengths stay within the capacities. -/
theorem CommitOf.inv (hc : CommitOf i s t) (h : Inv Config.params s) : Inv Config.params t := by
  cases hc with
  | nothing => exact h
  | block x => exact h.withX x
  | keys rk _ hrk => exact h.commitRk hrk
  | stream bits o rk _ _ hbits hrk => exact ((h.commitS (hbits h.sLe)).withOlen o).commitRk hrk
  | string bits _ hbits => exact h.commitS (hbits h.sLe)
  | rotation bits sh _ hbits hsh => exact (h.commitS (hbits h.sLe)).commitSh (hsh h.k2Le)

/-- No commit touches the model's count of the latency. -/
theorem CommitOf.latency (hc : CommitOf i s t) : t.latency = s.latency := by cases hc <;> rfl

theorem Inv.exec (h : Inv Config.params s) (hl : s.latency = 0) (ht : exec i s = .next t) : Inv Config.params t := by
  obtain ⟨u, code, hu, hc, rfl⟩ := commitOf_of_exec ht
  exact (hu.inv h).finish (hu.latency.trans hl) hc _

theorem Inv.completeCommand (h : Inv Config.params s) (hl : s.latency = 0) {w : Word}
    (ht : completeCommand w s = .next t) : Inv Config.params t := by
  unfold Machine.completeCommand at ht
  split at ht
  · exact h.exec hl ht
  · cases ht
    exact h.finish hl (errCode_legal .illegalCommand).1 _

end completion

/-- Settles O59: a step is a completion once the latency has passed, else an action of the host, and each keeps the
invariant. -/
theorem stepKeepsInvariant : Obligations.StepKeepsInvariant := by
  unfold Obligations.StepKeepsInvariant
  intro s t h ht
  unfold step agentStep at ht
  split at ht
  · next hl => exact h.completeCommand hl ht
  · exact h.hostStep ht

end Sys2Proof.Machine

/-! PROOF. Which commands write which register and buffer (10_state.md R20 to R27). -/
namespace Sys2Proof.Machine

section writers

variable {i : Instr} {s t : State}

/-- The keys are the host's alone to write (10_state.md R23, R24). -/
theorem CommitOf.keepsKeys (h : CommitOf i s t) :
    t.k1Len = s.k1Len ∧ t.k2Len = s.k2Len ∧ t.mem.k1 = s.mem.k1 ∧ t.mem.k2 = s.mem.k2 := by
  cases h <;> exact ⟨rfl, rfl, rfl, rfl⟩

theorem CommitOf.keepsX (h : CommitOf i s t)
    (hi : i.opcode ∉ [0x01#8, 0x02#8, 0x03#8, 0x04#8, 0x05#8, 0x06#8, 0x07#8]) : t.x = s.x := by
  cases h with
  | block x h' => exact absurd h' hi
  | nothing | keys | stream | string | rotation => rfl

theorem CommitOf.keepsRk (h : CommitOf i s t) (hi : i.opcode ∉ [0x08#8, 0x10#8, 0x11#8]) :
    t.nrk = s.nrk ∧ t.mem.rkHi = s.mem.rkHi ∧ t.mem.rkLo = s.mem.rkLo := by
  cases h with
  | keys rk h' => simp [h'] at hi
  | stream bits o rk h' => exact absurd (List.mem_cons_of_mem _ h') hi
  | nothing | block | string | rotation => exact ⟨rfl, rfl, rfl⟩

theorem CommitOf.keepsOlen (h : CommitOf i s t) (hi : i.opcode ≠ 0x10#8) : t.olen = s.olen := by
  cases h with
  | stream bits o rk _ ho => exact ho hi
  | nothing | block | keys | string | rotation => rfl

theorem CommitOf.keepsSh (h : CommitOf i s t) (hi : i.opcode ≠ 0x22#8) :
    t.shLen = s.shLen ∧ t.mem.sh = s.mem.sh := by
  cases h with
  | rotation bits sh h' => exact absurd h' hi
  | nothing | block | keys | stream | string => exact ⟨rfl, rfl⟩

theorem CommitOf.keepsS (h : CommitOf i s t)
    (hi : i.opcode ∉ [0x10#8, 0x11#8, 0x20#8, 0x21#8, 0x22#8, 0x23#8]) : t.sLen = s.sLen ∧ t.mem.s = s.mem.s := by
  cases h with
  | stream bits o rk h' => simp_all
  | string bits h' => simp_all
  | rotation bits sh h' => simp [h'] at hi
  | nothing | block | keys => exact ⟨rfl, rfl⟩

/-- No command writes a key (10_state.md R23, R24). -/
theorem exec_keepsKeys {i : Instr} {t : State} (h : exec i s = .next t) :
    t.mem.k1 = s.mem.k1 ∧ t.mem.k2 = s.mem.k2 := by
  obtain ⟨u, code, hu, -, rfl⟩ := commitOf_of_exec h
  exact hu.keepsKeys.2.2

end writers

/-- Settles O11: each way to commit keeps what its commands do not write, and a completion adds only STATUS and PEND. -/
theorem writersOfEachRegister : Obligations.WritersOfEachRegister := by
  unfold Obligations.WritersOfEachRegister
  intro i s t h
  obtain ⟨u, code, hu, -, rfl⟩ := commitOf_of_exec h
  exact ⟨hu.keepsKeys, hu.keepsX, hu.keepsRk, hu.keepsOlen, hu.keepsSh, hu.keepsS⟩

end Sys2Proof.Machine

/-! PROOF. STATUS as the host sees it (10_state.md R28, 20_memory.md R55). -/
namespace Sys2Proof.Machine

/-- Above BUSY and DONE, STATUS is its upper fields. -/
theorem extractLsb'_statusWord (t : Status) {start len : Nat} (h : 2 ≤ start) :
    (statusWord t).extractLsb' start len =
      ((0 : BitVec 16) ++ t.lastOpc ++ t.err ++ (0 : BitVec 2)).extractLsb' (start - 2) len := by
  unfold statusWord
  exact (BitVec.extractLsb'_append_eq_of_le (by omega)).trans (BitVec.extractLsb'_append_eq_of_le (by omega))

/-- Each field of STATUS stands at its bits, and the reserved bits are 0 (10_state.md R28). -/
theorem statusWord_fields (t : Status) :
    (statusWord t).getLsbD 0 = t.busy ∧ (statusWord t).getLsbD 1 = t.done ∧ (statusWord t).extractLsb' 2 2 = 0#2 ∧
      (statusWord t).extractLsb' 4 4 = t.err ∧ (statusWord t).extractLsb' 8 8 = t.lastOpc ∧
      (statusWord t).extractLsb' 16 16 = 0#16 := by
  refine ⟨?_, ?_, ?_, ?_, ?_, ?_⟩
  · simp only [statusWord, BitVec.getLsbD_append]
    simp
  · simp only [statusWord, BitVec.getLsbD_append]
    simp
  · rw [extractLsb'_statusWord t (by decide)]
    exact BitVec.extractLsb'_append_eq_right
  · rw [extractLsb'_statusWord t (by decide), BitVec.extractLsb'_append_eq_of_le (by decide)]
    exact BitVec.extractLsb'_append_eq_right
  · rw [extractLsb'_statusWord t (by decide), BitVec.extractLsb'_append_eq_of_le (by decide),
      BitVec.extractLsb'_append_eq_of_le (by decide)]
    exact BitVec.extractLsb'_append_eq_right
  · rw [extractLsb'_statusWord t (by decide), BitVec.extractLsb'_append_eq_of_le (by decide),
      BitVec.extractLsb'_append_eq_of_le (by decide)]
    exact BitVec.extractLsb'_append_eq_left

theorem accessReg_status (P : Params) : accessReg P statusAddr 4 = some .status := rfl

/-- While no word waits at latency 0, the host moves. -/
theorem step_of_hostNext {s : State} {a : HostAction} (h : s.pend = none ∨ 0 < s.latency) (hn : HostNext s a) :
    step s = hostAct Config.params s.tick a :=
  h.elim (step_of_idle · hn) (step_of_latency · hn)

/-- A read of STATUS answers its word, also while busy (70_reset_and_hazards.md R284). -/
theorem hostRead_status (P : Params) (s : State) :
    hostRead P statusAddr 4 s = .next (s.record statusAddr (statusWord s.status)).advance := by
  simp [hostRead, accessReg_status, readReg]

/-- A write of STATUS while idle is ignored (20_memory.md R55). -/
theorem hostWrite_status (P : Params) {s : State} (h : s.status.busy = false) (v : Word) :
    hostWrite P statusAddr 4 v s = .next s.advance := by
  simp [hostWrite, h, accessReg_status, writeReg]

/-- Settles O43: the fields of the word read are those of STATUS, a read writes only the host's record, and a write
nothing at all. -/
theorem statusReadAndWrite : Obligations.StatusReadAndWrite := by
  unfold Obligations.StatusReadAndWrite
  intro s
  constructor
  · intro hm hn
    obtain ⟨hBusy, hDone, hLow, hErr, hOpc, hHigh⟩ := statusWord_fields s.status
    refine ⟨statusWord s.status, hBusy, hDone, hLow, hErr, hOpc, hHigh, ?_⟩
    rw [step_of_hostNext hm hn]
    exact hostRead_status Config.params s.tick
  · rintro v ⟨hp, hb, hl⟩ hn
    rw [step_of_idle hp hn, tick_of_latency_zero hl]
    exact hostWrite_status Config.params hb v

end Sys2Proof.Machine

/-! PROOF. No command reads a cell at or beyond its length (10_state.md R34): two states whose memories agree below
every length answer alike. -/
namespace Sys2Proof.Machine

/-- The five buffers of the core. -/
inductive BufferName where
  | rk
  | k1
  | k2
  | s
  | sh

/-- Two buffers agree below `n`, and everywhere unless they may differ. -/
structure SameBelow {α : Type} (mayDiffer : Prop) (n : Nat) (a b : Buffer α) : Prop where
  below : ∀ j, j < n → cellGet b j = cellGet a j
  same : ¬ mayDiffer → b = a

/-- `m` is the memory of `s` but for the cells of the named buffer at or beyond its length. -/
structure SameBut (name : BufferName) (s : State) (m : Memory) : Prop where
  rkHi : SameBelow (name = .rk) s.nrk s.mem.rkHi m.rkHi
  rkLo : SameBelow (name = .rk) s.nrk s.mem.rkLo m.rkLo
  k1 : SameBelow (name = .k1) s.k1Len s.mem.k1 m.k1
  k2 : SameBelow (name = .k2) s.k2Len s.mem.k2 m.k2
  bits : SameBelow (name = .s) s.sLen s.mem.s m.s
  sh : SameBelow (name = .sh) s.shLen s.mem.sh m.sh

/-- `s` with its memory replaced. -/
def State.withMem (s : State) (m : Memory) : State := { s with mem := m }

section buffers

variable {α : Type} {mayDiffer : Prop} {n : Nat}

theorem SameBelow.refl (mayDiffer : Prop) (n : Nat) (a : Buffer α) : SameBelow mayDiffer n a a :=
  ⟨fun _ _ => rfl, fun _ => rfl⟩

/-- A host write beyond the length is not seen below it. -/
theorem sameBelow_cellSet (h : mayDiffer) {k : Nat} (hk : n ≤ k) (v : α) (a : Buffer α) :
    SameBelow mayDiffer n a (cellSet k v a) :=
  ⟨fun _ hj => cellGet_cellSet_other (by omega) v a, absurd h⟩

/-- After a commit of one value, two buffers agree below its length. -/
theorem SameBelow.commit {a b : Buffer α} (h : SameBelow mayDiffer n a b) (free : Nat → α) {vs : List α} {len : Nat}
    (hl : vs.length = len) : SameBelow mayDiffer len (cellCommit free vs a) (cellCommit free vs b) :=
  ⟨fun _ hj => by rw [cellGet_cellCommit_lt free b (hl ▸ hj), cellGet_cellCommit_lt free a (hl ▸ hj)],
    fun hd => by rw [h.same hd]⟩

/-- Reading cells sees only the cells it reads. -/
theorem readCells_congr {get get' : Nat → Option α} {cell : Nat → CellId} {i : Nat}
    (h : ∀ j, j < i + n → get' j = get j) : readCells get' cell n i = readCells get cell n i := by
  induction n generalizing i with
  | zero => rfl
  | succ n ih => rw [readCells, readCells, h i (by omega), ih fun j hj => h j (by omega)]

/-- UNPAD1 sees only the cells below the length of the string. -/
theorem unpad1From_congr {get get' : Nat → Option Bool} (h : ∀ j, j < n → get' j = get j) (k : List Byte)
    (fuel p i : Nat) : unpad1From get' k n fuel p i = unpad1From get k n fuel p i := by
  induction fuel generalizing p i with
  | zero => rfl
  | succ fuel ih =>
    rw [unpad1From, unpad1From]
    by_cases hp : p < n
    · rw [h p hp, ih]
    · rw [if_neg hp, if_neg hp]

end buffers

section sameBut

variable {name : BufferName} {s : State} {m : Memory}

theorem SameBut.refl (name : BufferName) (s : State) : SameBut name s s.mem :=
  ⟨.refl _ _ _, .refl _ _ _, .refl _ _ _, .refl _ _ _, .refl _ _ _, .refl _ _ _⟩

/-- A round key below NRK is the same: both of its halves are. -/
theorem SameBut.rkCell_eq (h : SameBut name s m) {j : Nat} (hj : j < s.nrk) : rkCell m j = rkCell s.mem j := by
  rw [rkCell, rkCell, h.rkHi.below j hj, h.rkLo.below j hj]

theorem SameBut.readK1_eq (h : SameBut name s m) : readK1 (s.withMem m) = readK1 s :=
  readCells_congr (n := s.k1Len) fun j hj => h.k1.below j (by omega)

theorem SameBut.readK2_eq (h : SameBut name s m) : readK2 (s.withMem m) = readK2 s :=
  readCells_congr (n := s.k2Len) fun j hj => h.k2.below j (by omega)

theorem SameBut.readS_eq (h : SameBut name s m) : readS (s.withMem m) = readS s :=
  readCells_congr (n := s.sLen) fun j hj => h.bits.below j (by omega)

theorem SameBut.readSh_eq (h : SameBut name s m) : readSh (s.withMem m) = readSh s :=
  readCells_congr (n := s.shLen) fun j hj => h.sh.below j (by omega)

theorem SameBut.readRk_eq (h : SameBut name s m) : readRk (s.withMem m) = readRk s :=
  readCells_congr (n := s.nrk) fun _ hj => h.rkCell_eq (by omega)

theorem SameBut.readRkAt_eq (h : SameBut name s m) {r : Nat} (hr : r < s.nrk) :
    readRkAt (s.withMem m) r = readRkAt s r := by
  rw [readRkAt, readRkAt, ← h.rkCell_eq hr]
  rfl

theorem SameBut.readSeed_eq (h : SameBut name s m) : readSeed (s.withMem m) = readSeed s := by
  rw [readSeed, readSeed, h.readK1_eq, h.readK2_eq]

theorem SameBut.unpad1_eq (h : SameBut name s m) (k : List Byte) :
    unpad1From (cellGet m.s) k s.sLen s.sLen 0 0 = unpad1From (cellGet s.mem.s) k s.sLen s.sLen 0 0 :=
  unpad1From_congr h.bits.below k _ _ _

end sameBut

section answersAlike

variable {name : BufferName}

/-- Two answers of pseudocode: the same stop, or states alike but for memory beyond the lengths. -/
def AnswersAlike (name : BufferName) (r r' : Except Stop State) : Prop :=
  (∃ e, r = .error e ∧ r' = .error e) ∨ ∃ t m, r = .ok t ∧ r' = .ok (t.withMem m) ∧ SameBut name t m

theorem AnswersAlike.ok {t : State} {m : Memory} (h : SameBut name t m) :
    AnswersAlike name (.ok t) (.ok (t.withMem m)) :=
  .inr ⟨t, m, rfl, rfl, h⟩

/-- A read or a check that answers the same on both sides leaves the rest to be compared. -/
theorem AnswersAlike.bind {α : Type} {r : Except Stop α} {f f' : α → Except Stop State}
    (h : ∀ a, r = .ok a → AnswersAlike name (f a) (f' a)) : AnswersAlike name (r >>= f) (r >>= f') := by
  cases r with
  | error e => exact .inl ⟨e, rfl, rfl⟩
  | ok a => exact h a rfl

variable {s : State} {m : Memory}

theorem SameBut.okX (h : SameBut name s m) (x : Block) :
    AnswersAlike name (.ok { s with x := x }) (.ok { s.withMem m with x := x }) :=
  .inr ⟨_, m, rfl, rfl, { h with }⟩

theorem SameBut.commitS (h : SameBut name s m) (bits : Bits) :
    SameBut name (s.commitS bits) ((s.withMem m).commitS bits).mem :=
  { h with bits := h.bits.commit _ rfl }

theorem SameBut.commitSh (h : SameBut name s m) (sh : List Word) :
    SameBut name (s.commitSh sh) ((s.withMem m).commitSh sh).mem :=
  { h with sh := h.sh.commit _ rfl }

theorem SameBut.commitRk (h : SameBut name s m) (rk : List Block) :
    SameBut name (s.commitRk rk) ((s.withMem m).commitRk rk).mem :=
  { h with
    rkHi := h.rkHi.commit _ (List.length_map _)
    rkLo := h.rkLo.commit _ (List.length_map _) }

theorem SameBut.withOlen (h : SameBut name s m) (o : Word) : SameBut name { s with olen := o } m := { h with }

/-- The pseudocode of a command answers alike on states that agree below every length. -/
theorem SameBut.answersAlike (h : SameBut name s m) (i : Instr) :
    AnswersAlike name (execute i s) (execute i (s.withMem m)) := by
  cases i with
  | nop => exact .ok h
  | sub | isub | perm | iperm => exact h.okX _
  | xork r =>
    refine .bind fun _ hr => ?_
    rw [h.readRkAt_eq (by simpa using require_eq_ok.1 hr)]
    exact .bind fun k _ => h.okX _
  | encb =>
    rw [execute, execute, executeEncb, executeEncb, h.readRk_eq]
    exact .bind fun _ _ => .bind fun rk _ => h.okX _
  | decb =>
    rw [execute, execute, executeDecb, executeDecb, h.readRk_eq]
    exact .bind fun _ _ => .bind fun rk _ => h.okX _
  | keyexp n =>
    rw [execute, execute, executeKeyexp, executeKeyexp, h.readSeed_eq]
    exact .bind fun _ _ => .bind fun seed _ => .ok (h.commitRk _)
  | encs =>
    rw [execute, execute, executeEncs, executeEncs, h.readSeed_eq, h.readS_eq]
    exact .bind fun seed _ => .bind fun bits _ => .ok (((h.commitS _).withOlen _).commitRk _)
  | decs =>
    rw [execute, execute, executeDecs, executeDecs, h.readSeed_eq, h.readS_eq]
    exact .bind fun seed _ => .bind fun _ _ => .bind fun _ _ => .bind fun bits _ => .ok ((h.commitS _).commitRk _)
  | pad1 =>
    rw [execute, execute, executePad1, executePad1, h.readK1_eq, h.readS_eq]
    exact .bind fun k _ => .bind fun _ _ => .bind fun bits _ => .bind fun _ _ => .ok (h.commitS _)
  | unpad1 =>
    rw [execute, execute, executeUnpad1, executeUnpad1, h.readK1_eq]
    refine .bind fun k _ => .bind fun _ _ => ?_
    rw [← h.unpad1_eq k]
    exact .bind fun u _ => .ok (h.commitS _)
  | rot =>
    rw [execute, execute, executeRot, executeRot, h.readK2_eq, h.readS_eq]
    exact .bind fun k _ => .bind fun _ _ => .bind fun bits _ => .ok ((h.commitS _).commitSh _)
  | unrot =>
    rw [execute, execute, executeUnrot, executeUnrot, h.readK2_eq, h.readS_eq, h.readSh_eq]
    exact .bind fun k _ => .bind fun _ _ => .bind fun _ _ => .bind fun sh _ => .bind fun _ _ => .bind fun bits _ =>
      .ok (h.commitS _)

/-- A command that answers a next state answers one alike where memory differs only beyond a length. -/
theorem SameBut.exec (h : SameBut name s m) {i : Instr} {t : State} (ht : exec i s = .next t) :
    ∃ m', exec i (s.withMem m) = .next (t.withMem m') ∧ SameBut name t m' := by
  rw [exec_eq_complete] at ht ⊢
  obtain ⟨e, hr, hr'⟩ | ⟨u, m', hr, hr', hu⟩ := h.answersAlike i
  · rw [hr] at ht
    rw [hr']
    cases e with
    | raise e =>
      cases ht
      exact ⟨m, rfl, { h with }⟩
    | unwritten c => cases ht
  · rw [hr] at ht
    rw [hr']
    cases ht
    exact ⟨m', rfl, { hu with }⟩

end answersAlike

section oneBuffer

variable {s : State} {m : Memory}

theorem Memory.eq_of_buffers {m m' : Memory} (hHi : m.rkHi = m'.rkHi) (hLo : m.rkLo = m'.rkLo) (h1 : m.k1 = m'.k1)
    (h2 : m.k2 = m'.k2) (hs : m.s = m'.s) (hSh : m.sh = m'.sh) : m = m' := by
  cases m
  cases m'
  simp_all

theorem SameBut.eq_k1 (h : SameBut .k1 s m) : m = { s.mem with k1 := m.k1 } :=
  Memory.eq_of_buffers (h.rkHi.same nofun) (h.rkLo.same nofun) rfl (h.k2.same nofun) (h.bits.same nofun)
    (h.sh.same nofun)

theorem SameBut.eq_k2 (h : SameBut .k2 s m) : m = { s.mem with k2 := m.k2 } :=
  Memory.eq_of_buffers (h.rkHi.same nofun) (h.rkLo.same nofun) (h.k1.same nofun) rfl (h.bits.same nofun)
    (h.sh.same nofun)

theorem SameBut.eq_s (h : SameBut .s s m) : m = { s.mem with s := m.s } :=
  Memory.eq_of_buffers (h.rkHi.same nofun) (h.rkLo.same nofun) (h.k1.same nofun) (h.k2.same nofun) rfl (h.sh.same nofun)

theorem SameBut.eq_sh (h : SameBut .sh s m) : m = { s.mem with sh := m.sh } :=
  Memory.eq_of_buffers (h.rkHi.same nofun) (h.rkLo.same nofun) (h.k1.same nofun) (h.k2.same nofun) (h.bits.same nofun)
    rfl

theorem SameBut.eq_rk (h : SameBut .rk s m) : m = { s.mem with rkHi := m.rkHi, rkLo := m.rkLo } :=
  Memory.eq_of_buffers rfl rfl (h.k1.same nofun) (h.k2.same nofun) (h.bits.same nofun)
    (h.sh.same nofun)

end oneBuffer

/-- Settles O12: a cell written at or beyond its length leaves the lower cells alone, so the command answers alike; a
key then still is what the host wrote, since no command writes one. -/
theorem cellsBeyondLengthAreNotRead : Obligations.CellsBeyondLengthAreNotRead := by
  unfold Obligations.CellsBeyondLengthAreNotRead
  intro i s t k ht
  refine ⟨fun v hk => ?_, fun v hk => ?_, fun v hk => ?_, fun v hk => ?_, fun v hk => ?_⟩
  · have h : SameBut .k1 s { s.mem with k1 := cellSet k v s.mem.k1 } :=
      { SameBut.refl .k1 s with k1 := sameBelow_cellSet rfl hk v _ }
    obtain ⟨m, hm, h'⟩ := h.exec ht
    have hkey : m.k1 = cellSet k v t.mem.k1 := (exec_keepsKeys ht).1 ▸ (exec_keepsKeys hm).1
    rw [← hkey, ← h'.eq_k1]
    exact hm
  · have h : SameBut .k2 s { s.mem with k2 := cellSet k v s.mem.k2 } :=
      { SameBut.refl .k2 s with k2 := sameBelow_cellSet rfl hk v _ }
    obtain ⟨m, hm, h'⟩ := h.exec ht
    have hkey : m.k2 = cellSet k v t.mem.k2 := (exec_keepsKeys ht).2 ▸ (exec_keepsKeys hm).2
    rw [← hkey, ← h'.eq_k2]
    exact hm
  · have h : SameBut .s s { s.mem with s := cellSet k v s.mem.s } :=
      { SameBut.refl .s s with bits := sameBelow_cellSet rfl hk v _ }
    obtain ⟨m, hm, h'⟩ := h.exec ht
    exact ⟨_, hm, congrArg t.withMem h'.eq_s, h'.bits.below⟩
  · have h : SameBut .sh s { s.mem with sh := cellSet k v s.mem.sh } :=
      { SameBut.refl .sh s with sh := sameBelow_cellSet rfl hk v _ }
    obtain ⟨m, hm, h'⟩ := h.exec ht
    exact ⟨_, hm, congrArg t.withMem h'.eq_sh, h'.sh.below⟩
  · have h : SameBut .rk s { s.mem with
        rkHi := cellSet k (hiHalf v) s.mem.rkHi, rkLo := cellSet k (loHalf v) s.mem.rkLo } :=
      { SameBut.refl .rk s with
        rkHi := sameBelow_cellSet rfl hk _ _
        rkLo := sameBelow_cellSet rfl hk _ _ }
    obtain ⟨m, hm, h'⟩ := h.exec ht
    exact ⟨_, hm, congrArg t.withMem h'.eq_rk, fun _ hj => h'.rkCell_eq hj⟩

end Sys2Proof.Machine

/-! PROOF. What the host sees of an idle core: one rule for a read of a register, one for a write, one for a refused
access (20_memory.md R51 to R53). -/
namespace Sys2Proof.Machine

section access

variable (P : Params)

/-- An aligned 32-bit access reaches what the register map lists at its address. -/
theorem accessReg_ofNat {a : Nat} (hlt : a < 2 ^ 20) (h4 : a % 4 = 0) :
    accessReg P (BitVec.ofNat 20 a) 4 = regAt P a := by
  rw [accessReg, BitVec.toNat_ofNat, Nat.mod_eq_of_lt hlt, if_pos ⟨rfl, h4⟩]

theorem accessReg_rkHi {j : Nat} (h : j ≤ P.maxRounds) :
    accessReg P (BitVec.ofNat 20 (0x01000 + 8 * j)) 4 = some (.rkHi j) := by
  have := maxRounds_bounds P
  rw [accessReg_ofNat P (by omega) (by omega), regAt_rkHi P h]

theorem accessReg_rkLo {j : Nat} (h : j ≤ P.maxRounds) :
    accessReg P (BitVec.ofNat 20 (0x01004 + 8 * j)) 4 = some (.rkLo j) := by
  have := maxRounds_bounds P
  rw [accessReg_ofNat P (by omega) (by omega), regAt_rkLo P h]

theorem accessReg_k1Ch {j : Nat} (h : j < P.maxKey) :
    accessReg P (BitVec.ofNat 20 (0x02000 + 4 * j)) 4 = some (.k1Ch j) := by
  have := maxKey_bounds P
  rw [accessReg_ofNat P (by omega) (by omega), regAt_k1Ch P h]

theorem accessReg_k2Ch {j : Nat} (h : j < P.maxKey) :
    accessReg P (BitVec.ofNat 20 (0x03000 + 4 * j)) 4 = some (.k2Ch j) := by
  have := maxKey_bounds P
  rw [accessReg_ofNat P (by omega) (by omega), regAt_k2Ch P h]

theorem accessReg_shW {j : Nat} (h : j < P.maxKey) :
    accessReg P (BitVec.ofNat 20 (0x04000 + 4 * j)) 4 = some (.shW j) := by
  have := maxKey_bounds P
  rw [accessReg_ofNat P (by omega) (by omega), regAt_shW P h]

theorem accessReg_sW {w : Nat} (h : w < P.maxBits / 32) :
    accessReg P (BitVec.ofNat 20 (0x10000 + 4 * w)) 4 = some (.sW w) := by
  have := maxBits_bounds P
  rw [accessReg_ofNat P (by omega) (by omega), regAt_sW P (by omega)]

/-- A bad width or a misaligned address reaches no register (20_memory.md R51). -/
theorem accessReg_eq_none_of_bad {a : Addr} {bytes : Nat} (h : bytes ≠ 4 ∨ a.toNat % 4 ≠ 0) :
    accessReg P a bytes = none :=
  if_neg fun ⟨hw, ha⟩ => h.elim (· hw) (· ha)

/-- The register map reaches nothing at an aligned address that 20_memory.md R53 does not list. -/
theorem regAt_eq_none {a : Nat} (h4 : a % 4 = 0) (h : ¬ Mapped P a) : regAt P a = none := by
  simp only [Mapped, not_or, not_exists, not_and] at h
  obtain ⟨hReg, hRk, hKey, hS⟩ := h
  have hBits := (maxBits_bounds P).2.2
  have hRk : ¬ (0x01000 ≤ a ∧ (a - 0x01000) / 8 ≤ P.maxRounds) := fun hj => by have := hRk _ hj.2; omega
  have hK1 : ¬ (0x02000 ≤ a ∧ (a - 0x02000) / 4 < P.maxKey) := fun hj => by have := hKey _ hj.2; omega
  have hK2 : ¬ (0x03000 ≤ a ∧ (a - 0x03000) / 4 < P.maxKey) := fun hj => by have := hKey _ hj.2; omega
  have hSh : ¬ (0x04000 ≤ a ∧ (a - 0x04000) / 4 < P.maxKey) := fun hj => by have := hKey _ hj.2; omega
  have hS : ¬ (0x10000 ≤ a ∧ 32 * ((a - 0x10000) / 4) < P.maxBits) := fun hw => by
    have := hS ((a - 0x10000) / 4)
    omega
  simp (disch := omega) only [regAt, if_neg]

/-- An unmapped address reaches no register (20_memory.md R52). -/
theorem accessReg_eq_none_of_unmapped {a : Addr} (h4 : a.toNat % 4 = 0) (h : ¬ Mapped P a.toNat) :
    accessReg P a 4 = none := by
  rw [accessReg, if_pos ⟨rfl, h4⟩, regAt_eq_none P h4 h]

end access

section idle

variable {s : State} {a : Addr} {bytes : Nat} {r : Reg}

/-- The next action of the host of an idle core is the whole step. -/
theorem step_of_idle_core (h : Idle s) {act : HostAction} (hn : HostNext s act) :
    step s = hostAct Config.params s act := by
  obtain ⟨hp, -, hl⟩ := h
  rw [step_of_idle hp hn, tick_of_latency_zero hl]

/-- A read of an idle core answers what the register reads as, and changes only what the host has read. -/
theorem step_read (h : Idle s) (hr : accessReg Config.params a bytes = some r) {v : Word}
    (hv : readReg Config.params s r = .ok v) (hn : HostNext s (.read a bytes)) :
    step s = .next (s.record a v).advance := by
  rw [step_of_idle_core h hn]
  simp [hostAct, hostRead, h.2.1, hr, hv]

/-- A read of an idle core that meets an unwritten cell is the fault UNWRITTEN_READ (20_memory.md R68). -/
theorem step_read_unwritten (h : Idle s) (hr : accessReg Config.params a bytes = some r) {c : CellId}
    (hc : readReg Config.params s r = .error c) (hn : HostNext s (.read a bytes)) :
    step s = .fault (.unwrittenRead c) := by
  rw [step_of_idle_core h hn]
  simp [hostAct, hostRead, h.2.1, hr, hc]

/-- A write of an idle core is the write of the register. -/
theorem step_write (h : Idle s) (hr : accessReg Config.params a bytes = some r) {v : Word}
    (hn : HostNext s (.write a bytes v)) : step s = .next (writeReg Config.params v s r).advance := by
  rw [step_of_idle_core h hn]
  simp [hostAct, hostWrite, h.2.1, hr]

/-- The same, with the written state given in another form. -/
theorem step_write_of_writeReg (h : Idle s) (hr : accessReg Config.params a bytes = some r) {v : Word} {t : State}
    (hw : writeReg Config.params v s r = t) (hn : HostNext s (.write a bytes v)) : step s = .next t.advance :=
  hw ▸ step_write h hr hn

/-- An access of an idle core that reaches no register is refused with its address (20_memory.md R51). -/
theorem step_refused (h : Idle s) (hr : accessReg Config.params a bytes = none) :
    (HostNext s (.read a bytes) → step s = .refused (.busError a)) ∧
      ∀ v, HostNext s (.write a bytes v) → step s = .refused (.busError a) := by
  constructor
  · intro hn
    rw [step_of_idle_core h hn]
    simp [hostAct, hostRead, h.2.1, hr]
  · intro v hn
    rw [step_of_idle_core h hn]
    simp [hostAct, hostWrite, h.2.1, hr]

/-- A register that reads as a number of 32 bits answers that number. -/
theorem step_read_number (h : Idle s) (hr : accessReg Config.params a 4 = some r) {n : Nat} (hlt : n < 2 ^ 32)
    (hv : readReg Config.params s r = .ok (BitVec.ofNat 32 n)) (hn : HostNext s (.read a 4)) :
    ∃ v : Word, v.toNat = n ∧ step s = .next (s.record a v).advance :=
  ⟨_, by rw [BitVec.toNat_ofNat, Nat.mod_eq_of_lt hlt], step_read h hr hv hn⟩

end idle

/-- Settles O42: a read that answers only records its answer. -/
theorem readsHaveNoSideEffect : Obligations.ReadsHaveNoSideEffect := by
  unfold Obligations.ReadsHaveNoSideEffect
  intro s t a bytes hm hn ht
  rw [step_of_hostNext hm hn] at ht
  obtain ⟨v, rfl⟩ := hostRead_eq_next ht
  rfl

/-- Settles O45: such an access reaches no register. -/
theorem badAccessRefused : Obligations.BadAccessRefused := by
  unfold Obligations.BadAccessRefused
  intro s a bytes h hbad
  exact step_refused h (accessReg_eq_none_of_bad _ hbad)

/-- Settles O46: such an address reaches no register. -/
theorem unmappedAccessRefused : Obligations.UnmappedAccessRefused := by
  unfold Obligations.UnmappedAccessRefused
  intro s a h h4 hmap
  exact step_refused h (accessReg_eq_none_of_unmapped _ h4 hmap)

/-- Settles O41: CMD accepts a word while idle, answers 0, and no write reaches it while a command waits. -/
theorem commandWordAccepted : Obligations.CommandWordAccepted := by
  unfold Obligations.CommandWordAccepted
  intro s w
  refine ⟨fun h hn => ⟨Config.coreLatency s.draws, step_write h (r := .cmd) rfl hn⟩, ?_,
    fun h hn => step_read h (r := .cmd) rfl rfl hn⟩
  rintro v ⟨-, hb, hl⟩ hn
  rw [step_of_latency hl hn]
  simp [hostAct, hostWrite, hb]

end Sys2Proof.Machine

/-! PROOF. A command that reads an unwritten cell inside a length stops with the fault UNWRITTEN_READ (20_memory.md R68,
45_control.md R222). -/
namespace Sys2Proof.Machine

section reads

variable {α : Type} {get : Nat → Option α} {cell : Nat → CellId} {n j : Nat}

/-- A whole buffer is not read past its first unwritten cell. -/
theorem readCells_first_unwritten (hj : j < n) (hnone : get j = none) (hsome : ∀ i, i < j → (get i).isSome) :
    readCells get cell n 0 = .error (cell j) :=
  readCells_eq_error.2 ⟨j, hj, by rwa [Nat.zero_add], by rw [Nat.zero_add], by simpa using hsome⟩

/-- A whole buffer with an unwritten cell is not read. -/
theorem readCells_of_unwritten (hj : j < n) (hnone : get j = none) : ∃ k, readCells get cell n 0 = .error (cell k) := by
  cases h : readCells get cell n 0 with
  | error c =>
    obtain ⟨k, -, -, rfl, -⟩ := readCells_eq_error.1 h
    exact ⟨_, rfl⟩
  | ok vs =>
    obtain ⟨rfl, hget⟩ := readCells_eq_ok_iff_holds.1 h
    simp [hget j hj] at hnone
    omega

end reads

section stops

variable {s : State} {c : CellId} {k1 k2 : List Byte}

/-- A command whose pseudocode reads an unwritten cell is the fault UNWRITTEN_READ. -/
theorem exec_unwritten {i : Instr} (h : execute i s = .error (.unwritten c)) :
    exec i s = .fault (.unwrittenRead c) := by
  rw [exec_eq_complete, h, complete_unwritten]

/-- ENCB and DECB read all round keys. -/
theorem exec_blockCipher_unwritten (h0 : s.nrk ≠ 0) (h : readRk s = .error c) :
    ∀ i ∈ [Instr.encb, .decb], exec i s = .fault (.unwrittenRead c) := by
  intro i hi
  simp only [List.mem_cons, List.not_mem_nil, or_false] at hi
  obtain rfl | rfl := hi
  · exact exec_unwritten (by simp [execute, executeEncb, h0, h])
  · exact exec_unwritten (by simp [execute, executeDecb, h0, h])

theorem exec_blockCipher_of_unwritten {j : Nat} (hj : j < s.nrk) (hnone : rkCell s.mem j = none) :
    ∀ i ∈ [Instr.encb, .decb], ∃ k, exec i s = .fault (.unwrittenRead (.rk k)) := by
  obtain ⟨k, hk⟩ := readCells_of_unwritten (cell := .rk) hj hnone
  exact fun i hi => ⟨k, exec_blockCipher_unwritten (by omega) hk i hi⟩

/-- The seed starts with K1. -/
theorem readSeed_unwritten_k1 (h : readK1 s = .error c) : readSeed s = .error (.unwritten c) := by
  simp [readSeed, h]

/-- K2 is read once K1 is checked. -/
theorem readSeed_unwritten_k2 (h1 : K1Is s k1) (hd : AllDigits k1) (h : readK2 s = .error c) :
    readSeed s = .error (.unwritten c) := by
  simp [readSeed, readK1_eq_ok.2 h1, validKey_iff.2 hd, h]

/-- KEYEXP, ENCS and DECS read the seed first. -/
theorem exec_seed_unwritten {n : Byte} (hn : n.toNat ≤ Config.params.maxRounds)
    (h : readSeed s = .error (.unwritten c)) :
    ∀ i ∈ [Instr.keyexp n, .encs, .decs], exec i s = .fault (.unwrittenRead c) := by
  intro i hi
  simp only [List.mem_cons, List.not_mem_nil, or_false] at hi
  obtain rfl | rfl | rfl := hi
  · exact exec_unwritten (by simp [execute, executeKeyexp, hn, h])
  · exact exec_unwritten (by simp [execute, executeEncs, h])
  · exact exec_unwritten (by simp [execute, executeDecs, h])

/-- PAD1 and UNPAD1 read K1 first. -/
theorem exec_pad_unwritten_k1 (h : readK1 s = .error c) :
    ∀ i ∈ [Instr.pad1, .unpad1], exec i s = .fault (.unwrittenRead c) := by
  intro i hi
  simp only [List.mem_cons, List.not_mem_nil, or_false] at hi
  obtain rfl | rfl := hi
  · exact exec_unwritten (by simp [execute, executePad1, h])
  · exact exec_unwritten (by simp [execute, executeUnpad1, h])

/-- ROT and UNROT read K2 first. -/
theorem exec_rotation_unwritten_k2 (h : readK2 s = .error c) :
    ∀ i ∈ [Instr.rot, .unrot], exec i s = .fault (.unwrittenRead c) := by
  intro i hi
  simp only [List.mem_cons, List.not_mem_nil, or_false] at hi
  obtain rfl | rfl := hi
  · exact exec_unwritten (by simp [execute, executeRot, h])
  · exact exec_unwritten (by simp [execute, executeUnrot, h])

end stops

section laterReads

variable {s : State} {c : CellId} {k : List Byte} {j : Nat}

/-- ENCS reads S after the seed. -/
theorem exec_encs_unwritten_s {seed : List Byte} (hseed : readSeed s = .ok seed) (h : readS s = .error c) :
    exec .encs s = .fault (.unwrittenRead c) :=
  exec_unwritten (by simp [execute, executeEncs, hseed, h])

/-- DECS reads S after the seed and the checks of the lengths. -/
theorem exec_decs_unwritten_s {seed : List Byte} (hseed : readSeed s = .ok seed) (h64 : s.sLen % 64 = 0)
    (ho : s.olen.toNat ≤ s.sLen) (h : readS s = .error c) : exec .decs s = .fault (.unwrittenRead c) :=
  exec_unwritten (by simp [execute, executeDecs, hseed, h64, ho, h])

/-- PAD1 reads S after K1. -/
theorem exec_pad1_unwritten_s (hk : K1Is s k) (hd : AllDigits k) (hne : k ≠ []) (h : readS s = .error c) :
    exec .pad1 s = .fault (.unwrittenRead c) :=
  exec_unwritten (by simp [execute, executePad1, readK1_eq_ok.2 hk, validDigitKey_iff.2 ⟨hd, hne⟩, h])

/-- UNPAD1 reads the first bit of each complete group after K1 (43_pad.md R181). -/
theorem exec_unpad1_unwritten_s (hk : K1Is s k) (hd : AllDigits k) (hne : k ≠ [])
    (hfit : padPos k (j + 1) ≤ s.sLen) (hnone : cellGet s.mem.s (padPos k j) = none)
    (hsome : ∀ i, i < j → (cellGet s.mem.s (padPos k i)).isSome) :
    exec .unpad1 s = .fault (.unwrittenRead (.s (padPos k j))) := by
  have hfuel : j < s.sLen := (le_padPos k (j + 1)).trans hfit
  have hbits := unpad1From_eq_unwritten (get := cellGet s.mem.s) (k := k) (m := j) (n := s.sLen) (f := s.sLen) (i := 0)
    (by simpa using hfit) hfuel (by simpa using hsome) (by simpa using hnone)
  rw [padPos_zero, Nat.zero_add] at hbits
  exact exec_unwritten (by simp [execute, executeUnpad1, readK1_eq_ok.2 hk, validDigitKey_iff.2 ⟨hd, hne⟩, hbits])

/-- ROT reads S after K2. -/
theorem exec_rot_unwritten_s (hk : K2Is s k) (hd : AllDigits k) (hne : k ≠ []) (h : readS s = .error c) :
    exec .rot s = .fault (.unwrittenRead c) :=
  exec_unwritten (by simp [execute, executeRot, readK2_eq_ok.2 hk, validDigitKey_iff.2 ⟨hd, hne⟩, h])

/-- UNROT reads SH after K2 and the check of SH_LEN. -/
theorem exec_unrot_unwritten_sh (hk : K2Is s k) (hd : AllDigits k) (hne : k ≠ []) (hs : 0 < s.sLen)
    (hlen : s.shLen = s.k2Len) (h : readSh s = .error c) : exec .unrot s = .fault (.unwrittenRead c) :=
  exec_unwritten (by
    simp [execute, executeUnrot, readK2_eq_ok.2 hk, validDigitKey_iff.2 ⟨hd, hne⟩, expectedShifts, hs, hlen, h])

/-- UNROT reads S after SH and the check of the shifts. -/
theorem exec_unrot_unwritten_s (hk : K2Is s k) (hd : AllDigits k) (hne : k ≠ []) (hs : 0 < s.sLen)
    (hlen : s.shLen = s.k2Len) {sh : List Word} (hsh : ShIs s sh) (hlt : ∀ v ∈ sh, v.toNat < s.sLen)
    (h : readS s = .error c) : exec .unrot s = .fault (.unwrittenRead c) := by
  have hshifts : (sh.all fun v => decide (v.toNat < s.sLen)) = true := by simpa using hlt
  exact exec_unwritten (by
    simp [execute, executeUnrot, readK2_eq_ok.2 hk, validDigitKey_iff.2 ⟨hd, hne⟩, expectedShifts, hs, hlen,
      readSh_eq_ok.2 hsh, hshifts, h])

end laterReads

/-- Settles O55: the first unwritten cell stops the read of its operand, and so the command, whose earlier reads and
checks pass. -/
theorem commandsFaultOnUnwrittenCells : Obligations.CommandsFaultOnUnwrittenCells := by
  unfold Obligations.CommandsFaultOnUnwrittenCells
  intro s n j k1 k2 hn
  refine ⟨fun hj hnone hsome => ?_, fun hj hnone hsome => ?_, fun hj hnone hsome => ?_, fun hj hnone hsome => ?_,
    fun hs hlen h2 hd2 hne hj hnone hsome => ?_, exec_unpad1_unwritten_s⟩
  · exact exec_blockCipher_unwritten (by omega) (readCells_first_unwritten hj hnone hsome)
  · have hread : readK1 s = .error (.k1 j) := readCells_first_unwritten hj hnone hsome
    exact fun i hi => List.forall_mem_append.2
      ⟨exec_seed_unwritten hn (readSeed_unwritten_k1 hread), exec_pad_unwritten_k1 hread⟩ i hi
  · have hread : readK2 s = .error (.k2 j) := readCells_first_unwritten hj hnone hsome
    exact ⟨exec_rotation_unwritten_k2 hread,
      fun h1 hd1 => exec_seed_unwritten hn (readSeed_unwritten_k2 h1 hd1 hread)⟩
  · have hread : readS s = .error (.s j) := readCells_first_unwritten hj hnone hsome
    refine ⟨fun h1 hd1 h2 hd2 => ?_, fun h1 hd1 hne => exec_pad1_unwritten_s h1 hd1 hne hread,
      fun h2 hd2 hne => ⟨exec_rot_unwritten_s h2 hd2 hne hread,
        fun sh hlen hsh hlt => exec_unrot_unwritten_s h2 hd2 hne (by omega) hlen hsh hlt hread⟩⟩
    have hseed : readSeed s = .ok (k1 ++ k2) := readSeed_eq_ok.2 ⟨k1, k2, h1, hd1, h2, hd2, rfl⟩
    exact ⟨exec_encs_unwritten_s hseed hread, fun h64 ho => exec_decs_unwritten_s hseed h64 ho hread⟩
  · exact exec_unrot_unwritten_sh h2 hd2 hne hs hlen (readCells_first_unwritten hj hnone hsome)

end Sys2Proof.Machine

/-! PROOF. The registers at fixed addresses: X, the length registers, OLEN and the CAP registers
(20_memory.md R56 to R62). -/
namespace Sys2Proof.Machine

/-- Settles O47: X is the upper half before the lower half, and a write replaces one of them. -/
theorem blockRegisterHalves : Obligations.BlockRegisterHalves := by
  unfold Obligations.BlockRegisterHalves
  intro s h
  refine ⟨step_read h (r := .xHi) rfl rfl, step_read h (r := .xLo) rfl rfl, fun v hn => ?_, fun v hn => ?_⟩
  · exact ⟨v ++ loHalf s.x, hiHalf_append _ _, loHalf_append _ _, step_write h (r := .xHi) rfl hn⟩
  · exact ⟨hiHalf s.x ++ v, loHalf_append _ _, hiHalf_append _ _, step_write h (r := .xLo) rfl hn⟩

/-- Settles O49: the CAP registers are the parameters, each below 2^32. -/
theorem capRegisters : Obligations.CapRegisters := by
  unfold Obligations.CapRegisters
  intro s a n h hmem
  have := maxBits_bounds Config.params
  have := maxKey_bounds Config.params
  have := maxRounds_bounds Config.params
  simp only [List.mem_cons, Prod.mk.injEq, List.not_mem_nil, or_false] at hmem
  obtain ⟨rfl, rfl⟩ | ⟨rfl, rfl⟩ | ⟨rfl, rfl⟩ := hmem
  · exact ⟨step_read_number h (r := .capMaxBits) rfl (by omega) rfl, fun v => step_write h (r := .capMaxBits) rfl⟩
  · exact ⟨step_read_number h (r := .capMaxKey) rfl (by omega) rfl, fun v => step_write h (r := .capMaxKey) rfl⟩
  · exact ⟨step_read_number h (r := .capMaxRounds) rfl (by omega) rfl, fun v => step_write h (r := .capMaxRounds) rfl⟩

/-! A length register keeps its value on a write above its legal maximum (20_memory.md R57, R59 to R61). -/

theorem writeReg_nrk (P : Params) (v : Word) (s : State) :
    writeReg P v s .nrk = { s with nrk := if v.toNat ≤ P.maxRounds + 1 then v.toNat else s.nrk } := by
  simp only [writeReg]
  split <;> rfl

theorem writeReg_sLen (P : Params) (v : Word) (s : State) :
    writeReg P v s .sLen = { s with sLen := if v.toNat ≤ P.maxBits then v.toNat else s.sLen } := by
  simp only [writeReg]
  split <;> rfl

theorem writeReg_shLen (P : Params) (v : Word) (s : State) :
    writeReg P v s .shLen = { s with shLen := if v.toNat ≤ P.maxKey then v.toNat else s.shLen } := by
  simp only [writeReg]
  split <;> rfl

theorem writeReg_k1Len (P : Params) (v : Word) (s : State) :
    writeReg P v s .k1Len = { s with k1Len := if v.toNat ≤ P.maxKey then v.toNat else s.k1Len } := by
  simp only [writeReg]
  split <;> rfl

theorem writeReg_k2Len (P : Params) (v : Word) (s : State) :
    writeReg P v s .k2Len = { s with k2Len := if v.toNat ≤ P.maxKey then v.toNat else s.k2Len } := by
  simp only [writeReg]
  split <;> rfl

/-- Settles O48: each register at its address reads as its number and takes a legal one; a round-key count above an
unwritten key stops ENCB and DECB at the first such key. -/
theorem lengthRegisters : Obligations.LengthRegisters := by
  unfold Obligations.LengthRegisters
  intro s h
  refine ⟨fun a n hlt hmem => ?_, fun v => step_write_of_writeReg h rfl (writeReg_nrk _ v s),
    fun v j hn hv hj hk => ?_, fun v => step_write h (r := .olen) rfl,
    fun v => step_write_of_writeReg h rfl (writeReg_sLen _ v s),
    fun v => step_write_of_writeReg h rfl (writeReg_shLen _ v s),
    fun v => step_write_of_writeReg h rfl (writeReg_k1Len _ v s),
    fun v => step_write_of_writeReg h rfl (writeReg_k2Len _ v s)⟩
  · simp only [List.mem_cons, Prod.mk.injEq, List.not_mem_nil, or_false] at hmem
    obtain ⟨rfl, rfl⟩ | ⟨rfl, rfl⟩ | ⟨rfl, rfl⟩ | ⟨rfl, rfl⟩ | ⟨rfl, rfl⟩ | ⟨rfl, rfl⟩ := hmem
    · exact step_read_number h (r := .nrk) rfl hlt rfl
    · exact step_read_number h (r := .olen) rfl hlt (by simp [readReg])
    · exact step_read_number h (r := .sLen) rfl hlt rfl
    · exact step_read_number h (r := .shLen) rfl hlt rfl
    · exact step_read_number h (r := .k1Len) rfl hlt rfl
    · exact step_read_number h (r := .k2Len) rfl hlt rfl
  · have hstep := step_write_of_writeReg h rfl (writeReg_nrk _ v s) hn
    rw [if_pos hv] at hstep
    exact ⟨_, hstep, exec_blockCipher_of_unwritten hj hk⟩

end Sys2Proof.Machine

/-! PROOF. The windows: one cell written at a time, and what a read of a cell answers (20_memory.md R63 to R68). -/
namespace Sys2Proof.Machine

section cells

variable {m : Memory} {j : Nat}

/-- RK[j] with its upper half written is written exactly when its lower half is (20_memory.md R63). -/
theorem rkCell_of_hi {v : Word} (h : cellGet m.rkHi j = some v) : rkCell m j = (cellGet m.rkLo j).map (v ++ ·) := by
  rw [rkCell, h]
  cases cellGet m.rkLo j <;> rfl

/-- RK[j] with its lower half written is written exactly when its upper half is (20_memory.md R63). -/
theorem rkCell_of_lo {v : Word} (h : cellGet m.rkLo j = some v) : rkCell m j = (cellGet m.rkHi j).map (· ++ v) := by
  rw [rkCell, h]
  cases cellGet m.rkHi j <;> rfl

theorem sCellSeen_below {s : State} (w : Nat) {i : Nat} (h : i < s.sLen) : sCellSeen s w i = cellGet s.mem.s i :=
  if_pos h

theorem sCellSeen_beyond {s : State} (w : Nat) {i : Nat} (h : ¬ i < s.sLen) : (sCellSeen s w i).isSome := by
  rw [sCellSeen, if_neg h]
  rfl

/-- Bit 31-k of a packed word is bit k of the string (20_memory.md R66). -/
theorem getLsbD_packWord (bs : Bits) {k : Nat} (hk : k < 32) :
    (packWord bs).getLsbD (31 - k) = (bs[k]?).getD false := by
  unfold packWord
  rw [BitVec.getLsbD_ofFnLE, dif_pos (by omega), List.getD_eq_getElem?_getD]
  simp only [show 31 - (31 - k) = k by omega]

theorem readCellBelow_written {α : Type} {n j : Nat} (h : j < n) (free : α) (cell : CellId) (v : α) :
    readCellBelow n j free cell (some v) = .ok v :=
  if_pos h

theorem readCellBelow_unwritten {α : Type} {n j : Nat} (h : j < n) (free : α) (cell : CellId) :
    readCellBelow n j free cell none = .error cell :=
  if_pos h

theorem readCellBelow_beyond {α : Type} {n j : Nat} (h : n ≤ j) (free : α) (cell : CellId) (o : Option α) :
    readCellBelow n j free cell o = .ok free :=
  if_neg (Nat.not_lt.2 h)

theorem readCellBelow_map {α β : Type} (f : α → β) (n j : Nat) (free : α) (cell : CellId) (o : Option α) :
    (readCellBelow n j free cell o).map f = readCellBelow n j (f free) cell (o.map f) := by
  unfold readCellBelow
  split
  · cases o <;> rfl
  · rfl

end cells

/-- A read of a window word that shows cell `j` of a buffer of length `n` answers the cell as `f` shows it below the
length, the fault UNWRITTEN_READ where it is unwritten there, and some value beyond (20_memory.md R67, R68). -/
theorem step_read_cell {α : Type} {s : State} {a : Addr} {r : Reg} {n j : Nat} {free : Word} {cell : CellId}
    {f : α → Word} {o : Option α} (h : Idle s) (hr : accessReg Config.params a 4 = some r)
    (hread : readReg Config.params s r = readCellBelow n j free cell (o.map f)) (hn : HostNext s (.read a 4)) :
    (∀ c, j < n → o = some c → step s = .next (s.record a (f c)).advance) ∧
      (j < n → o = none → step s = .fault (.unwrittenRead cell)) ∧
      (n ≤ j → ∃ v, step s = .next (s.record a v).advance) := by
  refine ⟨fun c hj ho => ?_, fun hj ho => ?_, fun hj => ⟨free, ?_⟩⟩
  · subst ho
    exact step_read h hr (hread.trans (readCellBelow_written hj free cell _)) hn
  · subst ho
    exact step_read_unwritten h hr (hread.trans (readCellBelow_unwritten hj free cell)) hn
  · exact step_read h hr (hread.trans (readCellBelow_beyond hj free cell _)) hn

/-- Settles O50: the write sets one cell of one half buffer, and RK[j] has both halves or none. -/
theorem roundKeyWindow : Obligations.RoundKeyWindow := by
  unfold Obligations.RoundKeyWindow
  intro s j v h hj
  constructor
  · intro hn
    exact ⟨_, step_write h (accessReg_rkHi _ hj) hn, cellGet_cellSet_same j v _,
      fun i hi => cellGet_cellSet_other hi v _, rkCell_of_hi (cellGet_cellSet_same j v _), rfl⟩
  · intro hn
    exact ⟨_, step_write h (accessReg_rkLo _ hj) hn, cellGet_cellSet_same j v _,
      fun i hi => cellGet_cellSet_other hi v _, rkCell_of_lo (cellGet_cellSet_same j v _), rfl⟩

/-- Settles O51: the write sets one cell of one buffer. -/
theorem keyAndShiftWindows : Obligations.KeyAndShiftWindows := by
  unfold Obligations.KeyAndShiftWindows
  intro s j v h hj
  rw [← BitVec.setWidth_eq_extractLsb' (by decide)]
  refine ⟨fun hn => ?_, fun hn => ?_, fun hn => ?_⟩
  · exact ⟨_, step_write h (accessReg_k1Ch _ hj) hn, cellGet_cellSet_same j _ _,
      fun i hi => cellGet_cellSet_other hi _ _, rfl⟩
  · exact ⟨_, step_write h (accessReg_k2Ch _ hj) hn, cellGet_cellSet_same j _ _,
      fun i hi => cellGet_cellSet_other hi _ _, rfl⟩
  · exact ⟨_, step_write h (accessReg_shW _ hj) hn, cellGet_cellSet_same j v _,
      fun i hi => cellGet_cellSet_other hi v _, rfl⟩

/-- Settles O53: each window word shows one cell, a key character zero-extended and a round key by its half. -/
theorem windowReads : Obligations.WindowReads := by
  unfold Obligations.WindowReads
  intro s j h
  refine ⟨fun hj hn => ?_, fun hj hn => ?_, fun hj hn => ?_, fun hj hn => ?_, fun hj hn => ?_⟩
  · exact step_read_cell h (accessReg_k1Ch _ hj) (readCellBelow_map _ _ _ _ _ _) hn
  · exact step_read_cell h (accessReg_k2Ch _ hj) (readCellBelow_map _ _ _ _ _ _) hn
  · exact step_read_cell (f := id) h (accessReg_shW _ hj) (by rw [readReg, Option.map_id_apply]) hn
  · exact step_read_cell (f := hiHalf) h (accessReg_rkHi _ hj) rfl hn
  · exact step_read_cell (f := loHalf) h (accessReg_rkLo _ hj) rfl hn

/-- The word a read of S_W[w] answers, where every cell below S_LEN is written (20_memory.md R66). -/
theorem readReg_sW_eq_ok {P : Params} {s : State} {w : Nat} {f : Nat → Bool}
    (hf : ∀ k, k < 32 → 32 * w + k < s.sLen → cellGet s.mem.s (32 * w + k) = some (f k)) :
    ∃ v : Word, (∀ k, k < 32 → 32 * w + k < s.sLen → v.getLsbD (31 - k) = f k) ∧ readReg P s (.sW w) = .ok v := by
  cases hb : readCells (sCellSeen s w) .s 32 (32 * w) with
  | error c =>
    obtain ⟨k, hk, hnone, -, -⟩ := readCells_eq_error.1 hb
    by_cases hl : 32 * w + k < s.sLen
    · simp [sCellSeen_below w hl, hf k hk hl] at hnone
    · simp [Option.isSome_iff_ne_none.1 (sCellSeen_beyond w hl)] at hnone
  | ok bits =>
    obtain ⟨hlen, hbits⟩ := readCells_eq_ok.1 hb
    refine ⟨packWord bits, fun k hk hl => ?_, by rw [readReg, hb]; rfl⟩
    rw [getLsbD_packWord bits hk, ← hbits k (by omega), sCellSeen_below w hl, hf k hk hl]
    rfl

theorem writeReg_sW (P : Params) (v : Word) (s : State) (w : Nat) :
    writeReg P v s (.sW w) = { s with mem := { s.mem with s := writeSWord w v s.mem.s } } := rfl

/-- Settles O52: a write sets the 32 cells of its word, and a read packs what it sees of them. -/
theorem bitStringWindow : Obligations.BitStringWindow := by
  unfold Obligations.BitStringWindow
  intro s w h hw
  constructor
  · intro v hn
    have hstep := step_write_of_writeReg h (accessReg_sW _ hw) (writeReg_sW _ v s w) hn
    have hcells := fun i => cellGet_writeSWord w v i s.mem.s
    generalize writeSWord w v s.mem.s = b at hstep hcells
    refine ⟨_, hstep, fun k hk => ?_, fun i hi => ?_, rfl⟩
    · exact (hcells _).trans (by rw [if_pos (by omega), Nat.add_sub_cancel_left])
    · exact (hcells i).trans (if_neg (by omega))
  · intro f hn hf
    obtain ⟨v, hv, hread⟩ := readReg_sW_eq_ok hf
    exact ⟨v, hv, step_read h (accessReg_sW _ hw) hread hn⟩

/-- Settles O54: the cells of a word are read in rising order, and one beyond S_LEN never stops the read. -/
theorem unwrittenBitsFault : Obligations.UnwrittenBitsFault := by
  unfold Obligations.UnwrittenBitsFault
  intro s w k h hw hn hk hl hnone hsome
  have hcells : readCells (sCellSeen s w) .s 32 (32 * w) = .error (.s (32 * w + k)) := by
    refine readCells_eq_error.2 ⟨k, hk, ?_, rfl, fun i hi => ?_⟩
    · rw [sCellSeen_below w hl, hnone]
    · rw [sCellSeen_below w (by omega)]
      exact hsome i hi
  exact step_read_unwritten h (accessReg_sW _ hw) (by rw [readReg, hcells]; rfl) hn

end Sys2Proof.Machine

/-! PROOF. The block view of a bit string (20_memory.md R69). -/
namespace Sys2Proof.Machine

/-- The view of the bits of a value is the value (20_memory.md R69). -/
theorem blockOf_bitsOf (v : Block) : blockOf (bitsOf v) 0 = v := by
  refine BitVec.eq_of_getLsbD_eq fun i hi => ?_
  have hbit := getLsbD_blockOf (bitsOf v) 0 (j := 63 - i) (by omega)
  rwa [Nat.mul_zero, Nat.zero_add, getElem?_bitsOf v (by omega), show 63 - (63 - i) = i by omega] at hbit

/-- Settles O30: a block and its bits hold bit 63-j in place j, so the two views undo each other. -/
theorem blockViewOfBitString : Obligations.BlockViewOfBitString := by
  unfold Obligations.BlockViewOfBitString
  exact ⟨fun s b _ => getLsbD_blockOf s b, fun v => ⟨length_bitsOf v, fun _ => getElem?_bitsOf v⟩, blockOf_bitsOf⟩

end Sys2Proof.Machine

/-! PROOF. The decoder answers exactly the well-formed commands on exactly their words (30_encoding.md R80 to R86). -/
namespace Sys2Proof.Machine

section words

variable {w : Word}

/-- A word is OPC, IMM8 and RSVD in this order (30_encoding.md R81). -/
theorem fields_append_eq (w : Word) : opcField w ++ immField w ++ rsvdField w = w := by
  unfold opcField immField rsvdField
  rw [BitVec.extractLsb'_append_extractLsb'_eq_extractLsb' (by decide),
    BitVec.extractLsb'_append_extractLsb'_eq_extractLsb' (by decide)]
  exact BitVec.extractLsb'_eq_self

/-- A word with RSVD zero is known by its OPC and IMM8. -/
theorem word_eq_iff {opc imm : Byte} :
    w = opc ++ imm ++ (0 : BitVec 16) ↔ opcField w = opc ∧ immField w = imm ∧ rsvdField w = 0 := by
  constructor
  · rintro rfl
    exact Laws.EncodeFields.fields_append opc imm
  · rintro ⟨rfl, rfl, hrsvd⟩
    rw [← hrsvd, fields_append_eq]

theorem encode_eq_iff {i : Instr} :
    encode i = w ↔ opcField w = i.opcode ∧ immField w = i.imm ∧ rsvdField w = 0 :=
  eq_comm.trans word_eq_iff

/-- The mask of the commands with an immediate leaves IMM8 free (30_encoding.md R83). -/
theorem and_immMask_eq_iff {opc : Byte} :
    w &&& 0xFF00FFFF#32 = opc ++ (0 : Byte) ++ (0 : BitVec 16) ↔ opcField w = opc ∧ rsvdField w = 0 := by
  have hopc : opcField (w &&& 0xFF00FFFF#32) = opcField w :=
    BitVec.extractLsb'_and.trans (BitVec.and_allOnes (x := opcField w))
  have himm : immField (w &&& 0xFF00FFFF#32) = 0 :=
    BitVec.extractLsb'_and.trans (BitVec.and_zero (x := immField w))
  have hrsvd : rsvdField (w &&& 0xFF00FFFF#32) = rsvdField w :=
    BitVec.extractLsb'_and.trans (BitVec.and_allOnes (x := rsvdField w))
  rw [word_eq_iff, hopc, himm, hrsvd]
  simp

/-- The assembled word in the form of 30_encoding.md R80. -/
theorem encode_eq_shift_or (i : Instr) :
    encode i = (i.opcode.setWidth 32 <<< 24) ||| (i.imm.setWidth 32 <<< 16) := by
  simpa [encode] using BitVec.setWidth_append_append_eq_shiftLeft_setWidth_or (b := i.opcode) (b' := i.imm)
    (b'' := 0#16) (w''' := 32)

end words

section decoder

variable {P : Params} {w : Word} {i j : Instr}

theorem noImm_eq_ok : noImm w j = .ok i ↔ immField w = 0 ∧ j = i := by
  unfold noImm
  split
  · next h => simp [h]
  · next h => simp [show ¬ immField w = 0#8 from h]

/-- A row of the opcode map selects its own command with the word's immediate (30_encoding.md R83, R84). -/
theorem fields_of_decodeOpc (h : decodeOpc P w = .ok i) :
    opcField w = i.opcode ∧ immField w = i.imm ∧ i.wf P = true := by
  unfold decodeOpc at h
  split at h
  case h_2 hopc =>
    cases h
    exact ⟨hopc, rfl, rfl⟩
  case h_9 hopc =>
    split at h
    · next hn =>
      cases h
      exact ⟨hopc, rfl, decide_eq_true hn⟩
    · cases h
  case h_16 => cases h
  all_goals
    next hopc =>
    obtain ⟨himm, rfl⟩ := noImm_eq_ok.1 h
    exact ⟨hopc, himm, rfl⟩

/-- Every well-formed command has its row in the opcode map (30_encoding.md R83, R84). -/
theorem decodeOpc_of_fields (hopc : opcField w = i.opcode) (himm : immField w = i.imm) (hwf : i.wf P = true) :
    decodeOpc P w = .ok i := by
  unfold decodeOpc
  rw [hopc]
  cases i with
  | xork r => exact congrArg (Except.ok ∘ Instr.xork) himm
  | keyexp n =>
    have hn : (immField w).toNat ≤ P.maxRounds := by rw [himm]; exact of_decide_eq_true hwf
    exact (if_pos hn).trans (congrArg (Except.ok ∘ Instr.keyexp) himm)
  | nop | sub | isub | perm | iperm | encb | decb | encs | decs | pad1 | unpad1 | rot | unrot =>
    exact noImm_eq_ok.2 ⟨himm, rfl⟩

/-- What the decoder answers on every word: the command with these fields, if it is well formed (30_encoding.md R84). -/
theorem decode_eq_ok :
    decode P w = .ok i ↔ (opcField w = i.opcode ∧ immField w = i.imm ∧ rsvdField w = 0) ∧ i.wf P = true := by
  unfold decode
  constructor
  · intro h
    split at h
    · next hrsvd =>
      obtain ⟨hopc, himm, hwf⟩ := fields_of_decodeOpc h
      exact ⟨⟨hopc, himm, hrsvd⟩, hwf⟩
    · cases h
  · rintro ⟨⟨hopc, himm, hrsvd⟩, hwf⟩
    rw [if_pos hrsvd]
    exact decodeOpc_of_fields hopc himm hwf

theorem decode_eq_ok_iff_encode : decode P w = .ok i ↔ encode i = w ∧ i.wf P = true := by
  rw [decode_eq_ok, encode_eq_iff]

/-- A row whose every bit is fixed, against the full mask (30_encoding.md R83). -/
theorem decode_eq_ok_iff_word (hwf : i.wf P = true) : decode P w = .ok i ↔ w &&& 0xFFFFFFFF#32 = encode i := by
  rw [decode_eq_ok_iff_encode, show w &&& 0xFFFFFFFF#32 = w from BitVec.and_allOnes, and_iff_left hwf, eq_comm]

/-- A row with an immediate, against the mask that leaves IMM8 free (30_encoding.md R83). -/
theorem decode_eq_ok_iff_immWord {opc : Byte} (hopc : i.opcode = opc) :
    decode P w = .ok i ↔
      w &&& 0xFF00FFFF#32 = opc ++ (0 : Byte) ++ (0 : BitVec 16) ∧ immField w = i.imm ∧ i.wf P = true := by
  rw [decode_eq_ok, hopc, and_immMask_eq_iff]
  tauto

end decoder

/-- Settles O1: the word holds the command's fields, which are what the decoder reads. -/
theorem decodeOfEncode : Obligations.DecodeOfEncode := by
  unfold Obligations.DecodeOfEncode
  exact fun P i => ⟨encode_eq_shift_or i, fun hwf => decode_eq_ok_iff_encode.2 ⟨rfl, hwf⟩⟩

/-- Settles O2: the decoder answers a command on its own word alone. -/
theorem encodeOfDecode : Obligations.EncodeOfDecode := by
  unfold Obligations.EncodeOfDecode
  exact fun P w i => decode_eq_ok_iff_encode.1

/-- Settles O3: 13 rows fix every bit of the word, and the rows of XORK and KEYEXP all but IMM8. -/
theorem decodeSelectsOpcodeMapRow : Obligations.DecodeSelectsOpcodeMapRow := by
  unfold Obligations.DecodeSelectsOpcodeMapRow
  intro P w
  have xorkRow (r : Byte) :
      decode P w = .ok (.xork r) ↔ w &&& 0xFF00FFFF#32 = 0x01000000#32 ∧ w.extractLsb' 16 8 = r := by
    rw [decode_eq_ok_iff_immWord (i := .xork r) (opc := 0x01#8) rfl,
      and_iff_left (show Instr.wf P (.xork r) = true from rfl)]
    rfl
  have keyexpRow (n : Byte) : decode P w = .ok (.keyexp n) ↔
      w &&& 0xFF00FFFF#32 = 0x08000000#32 ∧ w.extractLsb' 16 8 = n ∧ n.toNat ≤ P.maxRounds := by
    rw [decode_eq_ok_iff_immWord (i := .keyexp n) (opc := 0x08#8) rfl, Instr.wf, decide_eq_true_iff]
    rfl
  have fixedRow {i : Instr} (hwf : i.wf P = true) : decode P w = .ok i ↔ w &&& 0xFFFFFFFF#32 = encode i :=
    decode_eq_ok_iff_word hwf
  exact ⟨fixedRow rfl, xorkRow, fixedRow rfl, fixedRow rfl, fixedRow rfl, fixedRow rfl, fixedRow rfl, fixedRow rfl,
    keyexpRow, fixedRow rfl, fixedRow rfl, fixedRow rfl, fixedRow rfl, fixedRow rfl, fixedRow rfl⟩

section illegal

variable {P : Params} {w : Word}

/-- KEYEXP alone has a bound (30_encoding.md R84). -/
theorem instr_wf_iff {i : Instr} : i.wf P = true ↔ (i.opcode = 0x08#8 → i.imm.toNat ≤ P.maxRounds) := by
  cases i with
  | keyexp n => simp [Instr.wf, Instr.opcode, Instr.imm]
  | nop | xork | sub | isub | perm | iperm | encb | decb | encs | decs | pad1 | unpad1 | rot | unrot =>
    simp [Instr.wf, Instr.opcode]

/-- The 15 opcodes (30_encoding.md R83). -/
def opcodes : List Byte :=
  [0x00, 0x01, 0x02, 0x03, 0x04, 0x05, 0x06, 0x07, 0x08, 0x10, 0x11, 0x20, 0x21, 0x22, 0x23]

/-- The commands without an immediate (30_encoding.md R83). -/
def plainInstrs : List Instr :=
  [.nop, .sub, .isub, .perm, .iperm, .encb, .decb, .encs, .decs, .pad1, .unpad1, .rot, .unrot]

/-- Each opcode but those of XORK and KEYEXP is that of a command without an immediate. -/
theorem exists_plainInstr : ∀ opc ∈ opcodes, opc ≠ 0x01#8 → opc ≠ 0x08#8 →
    ∃ i ∈ plainInstrs, opc = i.opcode ∧ 0 = i.imm := by decide

/-- Which pairs of OPC and IMM8 are those of a command (30_encoding.md R83). -/
theorem exists_instr_iff {opc imm : Byte} :
    (∃ i : Instr, opc = i.opcode ∧ imm = i.imm) ↔
      opc ∈ opcodes ∧ (opc ≠ 0x01#8 → opc ≠ 0x08#8 → imm = 0#8) := by
  constructor
  · rintro ⟨i, rfl, rfl⟩
    cases i <;> simp [Instr.opcode, Instr.imm, opcodes]
  · rintro ⟨hopc, himm⟩
    by_cases hxork : opc = 0x01#8
    · exact ⟨.xork imm, hxork, rfl⟩
    by_cases hkeyexp : opc = 0x08#8
    · exact ⟨.keyexp imm, hkeyexp, rfl⟩
    obtain ⟨i, -, hi⟩ := exists_plainInstr opc hopc hxork hkeyexp
    rw [himm hxork hkeyexp]
    exact ⟨i, hi⟩

/-- A word with none of the four ways of 30_encoding.md R85. -/
theorem not_illegalWord_iff :
    ¬ IllegalWord P w ↔
      opcField w ∈ opcodes ∧ rsvdField w = 0 ∧
        (opcField w ≠ 0x01#8 → opcField w ≠ 0x08#8 → immField w = 0#8) ∧
        (opcField w = 0x08#8 → (immField w).toNat ≤ P.maxRounds) := by
  unfold IllegalWord
  simp only [not_or, not_and, not_not, not_lt, ne_eq]
  rfl

end illegal

/-- Settles O5: the fields of a word are those of a well-formed command exactly when none of the four ways applies. -/
theorem decodeIsTotal : Obligations.DecodeIsTotal := by
  unfold Obligations.DecodeIsTotal
  intro P w
  rw [not_illegalWord_iff]
  constructor
  · rintro ⟨i, h⟩
    obtain ⟨⟨hopc, himm, hrsvd⟩, hwf⟩ := decode_eq_ok.1 h
    obtain ⟨hmem, hzero⟩ := exists_instr_iff.1 ⟨i, hopc, himm⟩
    exact ⟨hmem, hrsvd, hzero, by rw [hopc, himm]; exact instr_wf_iff.1 hwf⟩
  · rintro ⟨hmem, hrsvd, hzero, hbound⟩
    obtain ⟨i, hopc, himm⟩ := exists_instr_iff.2 ⟨hmem, hzero⟩
    rw [hopc, himm] at hbound
    exact ⟨i, decode_eq_ok.2 ⟨⟨hopc, himm, hrsvd⟩, instr_wf_iff.2 hbound⟩⟩

/-- Settles O6: each word is that of its command, and KEYEXP's 12 rounds are within every MAX_ROUNDS. -/
theorem sampleWordsDecode : Obligations.SampleWordsDecode := by
  unfold Obligations.SampleWordsDecode
  intro P
  have hkeyexp : (Instr.keyexp 12).wf P = true := decide_eq_true (maxRounds_bounds P).1
  have word (i : Instr) (hwf : i.wf P = true) : decode P (encode i) = .ok i := (decodeOfEncode P i).2 hwf
  exact ⟨word .nop rfl, word (.xork 3) rfl, word .encb rfl, word (.keyexp 12) hkeyexp, word .decs rfl,
    word .unpad1 rfl, word .rot rfl⟩

/-- The completion of an illegal word, in the state it leaves (30_encoding.md R85). -/
theorem completeCommand_of_illegal {s : State} {w : Word} (h : IllegalWord Config.params w) :
    completeCommand w s = .next (s.finish 4 (opcField w)) := by
  unfold completeCommand
  split
  · next i hi => exact absurd h ((decodeIsTotal Config.params w).1 ⟨i, hi⟩)
  · rfl

theorem completeCommand_of_decode {s : State} {w : Word} {i : Instr} (h : decode Config.params w = .ok i) :
    completeCommand w s = exec i s := by
  simp only [completeCommand, h]

/-- Settles O4: the completion of an illegal word writes STATUS and PEND alone. -/
theorem illegalWordCompletes : Obligations.IllegalWordCompletes := by
  unfold Obligations.IllegalWordCompletes
  intro s w hp hl h
  rw [step_of_latency_zero hp hl, completeCommand_of_illegal h]
  rfl

end Sys2Proof.Machine

/-! PROOF. A round of the engine and its undoing, and the pseudo-commands ROUND and IROUND (30_encoding.md R88,
41_round_engine.md R121 to R129). -/
namespace Sys2Proof.Machine

section layers

variable (P : Params) (x : Block)

theorem isbox64_sbox64 : isbox64 P (sbox64 P x) = x :=
  block_eq_of_nibbles fun j hj => by
    rw [isbox64, nibble_mapNibbles _ _ hj, sbox64, nibble_mapNibbles _ _ hj, Equiv.symm_apply_apply]

theorem iperm64_perm64 : iperm64 P (perm64 P x) = x :=
  BitVec.eq_of_getLsbD_eq fun i hi => by
    rw [getLsbD_iperm64 P _ ⟨i, hi⟩, getLsbD_perm64]

/-- `DecBlock`'s round undoes `EncBlock`'s (41_round_engine.md R132). -/
theorem decRound_encRound (k : Block) : decRound P k (encRound P x k) = x := by
  rw [decRound, encRound, iperm64_perm64, isbox64_sbox64, BitVec.xor_assoc, BitVec.xor_self, BitVec.xor_zero]

end layers

section runs

variable {s t : State} {r : Byte} {k : Block}

/-- A command that commits is followed by the rest of the list, from the completed state. -/
theorem runs_cons {i : Instr} {is : List Instr} {u : State} (h : execute i s = .ok u)
    (hr : Runs is (u.finish 0 i.opcode) t) : Runs (i :: is) s t :=
  ⟨_, exec_eq_next.2 (.inl ⟨u, h, rfl⟩), hr⟩

/-- The commands of ROUND r run to one encryption round. -/
theorem runs_round (hr : r.toNat < s.nrk) (hk : rkCell s.mem r.toNat = some k) :
    Runs (expandPseudo (.round r)) s ({ s with x := encRound Config.params s.x k }.finish 0 0x04) :=
  runs_cons (executeXork_eq_ok.2 ⟨hr, k, hk, rfl⟩) (runs_cons rfl (runs_cons rfl rfl))

/-- The commands of IROUND r run to one decryption round. -/
theorem runs_iround (hr : r.toNat < s.nrk) (hk : rkCell s.mem r.toNat = some k) :
    Runs (expandPseudo (.iround r)) s ({ s with x := decRound Config.params k s.x }.finish 0 0x01) :=
  runs_cons rfl (runs_cons rfl (runs_cons (executeXork_eq_ok.2 ⟨hr, k, hk, rfl⟩) rfl))

end runs

/-- Settles O23: ROUND runs one encryption round, IROUND one decryption round, and the second undoes the first. -/
theorem roundPseudoCommands : Obligations.RoundPseudoCommands := by
  unfold Obligations.RoundPseudoCommands
  intro s r k hr hk
  refine ⟨_, _, runs_round hr hk, rfl, runs_iround hr hk, ?_⟩
  simp only [finish_x, decRound_encRound]
  rfl

end Sys2Proof.Machine

/-! PROOF. A pending word waits out its latency while the host only reads STATUS, and then completes
(45_control.md R222, 70_reset_and_hazards.md R286). -/
namespace Sys2Proof.Machine

/-- The host reads STATUS n times, and then polls or ends unless the latency is over by then. -/
def ReadsStatus (n : Nat) (s : State) : Prop :=
  (∀ k, k < n → s.hostProgram[s.hostIndex + k]? = some (.read 0x00004 4)) ∧
    (s.latency ≤ n ∨ s.hostProgram[s.hostIndex + n]? = some .poll ∨ s.hostProgram[s.hostIndex + n]? = none)

/-- `t` is `s` with this latency and host index, but for the model's records. -/
def WaitsTo (latency hostIndex : Nat) (s t : State) : Prop :=
  t = { s with latency := latency, draws := t.draws, hostReads := t.hostReads, hostIndex := hostIndex }

section waiting

variable {s t u : State} {w : Word} {n : Nat}

theorem WaitsTo.trans {l l' i i' : Nat} (h : WaitsTo l i s t) (h' : WaitsTo l' i' t u) : WaitsTo l' i' s u := by
  unfold WaitsTo at *
  rw [h'.trans (by rw [h])]

/-- A step of the wait: a read of STATUS moves the host on, a poll and an ended program stay where they are. -/
theorem step_waits (hb : s.status.busy = true) (hl : 0 < s.latency) (h : ReadsStatus n s) :
    ∃ t, step s = .next t ∧ WaitsTo (s.latency - 1) (s.hostIndex + min n 1) s t ∧ ReadsStatus (n - 1) t := by
  obtain ⟨hread, hlast⟩ := h
  cases n with
  | zero =>
    obtain hle | hpoll | hend := hlast
    · omega
    · refine ⟨s.tick.record statusAddr (statusWord s.status), ?_, rfl, by simp, .inr (.inl hpoll)⟩
      rw [step_of_latency hl hpoll]
      simp [hostAct, hostPoll, hb]
    · exact ⟨s.tick, step_of_latency_ended hl hend, rfl, by simp, .inr (.inr hend)⟩
  | succ n =>
    refine ⟨(s.tick.record statusAddr (statusWord s.status)).advance, ?_, ?_, ?_, ?_⟩
    · rw [step_of_latency hl (hread 0 (by omega))]
      exact hostRead_status Config.params s.tick
    · rw [Nat.min_eq_right (by omega)]
      rfl
    · intro k hk
      have := hread (k + 1) (by omega)
      rwa [← Nat.add_assoc, Nat.add_right_comm] at this
    · refine hlast.imp (fun h => ?_) (fun h => ?_)
      · change s.latency - 1 ≤ n
        omega
      · rwa [← Nat.add_assoc, Nat.add_right_comm] at h

/-- The whole wait: as many steps as the latency. -/
theorem run_waits (hb : s.status.busy = true) (h : ReadsStatus n s) :
    ∃ t, Sys2Proof.core.run s.latency s = .next t ∧ WaitsTo 0 (s.hostIndex + min n s.latency) s t := by
  induction hl : s.latency generalizing s n with
  | zero => exact ⟨s, rfl, by rw [WaitsTo, Nat.min_zero, Nat.add_zero, ← hl]⟩
  | succ l ih =>
    obtain ⟨u, hstep, hu, hreads⟩ := step_waits hb (by omega) h
    rw [hl, Nat.add_sub_cancel] at hu
    obtain ⟨t, hrun, ht⟩ := ih (by rw [hu]; exact hb) hreads (by rw [hu])
    refine ⟨t, (run_succ_of_next hstep).trans hrun, ?_⟩
    have hindex : u.hostIndex = s.hostIndex + min n 1 := by rw [hu]
    rw [show s.hostIndex + min n (l + 1) = u.hostIndex + min (n - 1) l by omega]
    exact hu.trans ht

/-- A completion ends the command, or is the fault UNWRITTEN_READ. -/
theorem completeCommand_cases (w : Word) (s : State) :
    (∃ u, completeCommand w s = .next u ∧ u.pend = none ∧ u.status.busy = false ∧ u.status.done = true) ∨
      ∃ c, completeCommand w s = .fault (.unwrittenRead c) := by
  unfold completeCommand
  split
  · next i _ =>
    obtain ⟨code, u, hu⟩ | hc := exec_cases i s
    · exact .inl ⟨_, hu, rfl, rfl, rfl⟩
    · exact .inr hc
  · exact .inl ⟨_, rfl, rfl, rfl, rfl⟩

end waiting

/-- Settles O57: the wait leaves the word pending at latency 0, where the step is its completion. -/
theorem pendingWordReachesCompletion : Obligations.PendingWordReachesCompletion := by
  unfold Obligations.PendingWordReachesCompletion
  intro s w n hp hb hread hlast
  obtain ⟨t, hrun, ht⟩ := run_waits hb ⟨hread, hlast⟩
  have hpend : t.pend = some w := by rw [ht]; exact hp
  have hlat : t.latency = 0 := by rw [ht]
  have hstep := step_of_latency_zero hpend hlat
  refine ⟨t, hrun, ht, fun i hi => hstep.trans (completeCommand_of_decode hi), illegalWordCompletes t w hpend hlat, ?_⟩
  rw [hstep]
  exact completeCommand_cases w t

end Sys2Proof.Machine

/-! PROOF. KEYEXP commits the schedule of the seed K1 ++ K2 (40_key_schedule.md R101 to R104). -/
namespace Sys2Proof.Machine

section keyexp

variable {s : State} {n : Byte} {k1 k2 : List Byte}

/-- On valid keys KEYEXP commits the schedule of their concatenation. -/
theorem exec_keyexp (hn : n.toNat ≤ Config.params.maxRounds) (h1 : K1Is s k1) (hd1 : AllDigits k1) (h2 : K2Is s k2)
    (hd2 : AllDigits k2) :
    exec (.keyexp n) s =
      .next ((s.commitRk (expandKey Config.params (k1 ++ k2) n.toNat)).finish 0 0x08) :=
  exec_eq_next.2 (.inl ⟨_,
    executeKeyexp_eq_ok.2 ⟨hn, _, readSeed_eq_ok.2 ⟨k1, k2, h1, hd1, h2, hd2, rfl⟩, rfl⟩, rfl⟩)

/-- Committed keys are written, and are the same whatever the state was. -/
theorem rkCell_commitRk_congr (s s' : State) {rk : List Block} {j : Nat} (hj : j < rk.length) :
    rkCell (s.commitRk rk).mem j = rkCell (s'.commitRk rk).mem j ∧ (rkCell (s.commitRk rk).mem j).isSome := by
  simp [rkCell_commitRk, hj]

end keyexp

/-- Settles O24: the commit is the schedule of the seed, leaves the marks beyond it and writes RK and NRK alone. -/
theorem keyexpDerivesKeys : Obligations.KeyexpDerivesKeys := by
  unfold Obligations.KeyexpDerivesKeys
  intro s n k1 k2 hn h1 hd1 h2 hd2
  refine ⟨_, _, exec_keyexp hn h1 hd1 h2 hd2, isSchedule_expandKey .., rkIs_commitRk .., fun j hj => ?_, ?_⟩
  · exact marks_commitRk s (by simpa using hj)
  · simp [State.finish, State.commitRk, statusDone, completed]

/-- Settles O25: both states commit the schedule of the same seed. -/
theorem seedCollision : Obligations.SeedCollision := by
  unfold Obligations.SeedCollision
  intro s s' t t' n k1 k2 k1' k2' hn h1 h2 hd1 hd2 h1' h2' hd1' hd2' hseed ht ht'
  rw [exec_keyexp hn h1 hd1 h2 hd2] at ht
  rw [exec_keyexp hn h1' hd1' h2' hd2', ← hseed] at ht'
  cases ht
  cases ht'
  exact ⟨rfl, fun j hj => rkCell_commitRk_congr s s' hj⟩

end Sys2Proof.Machine

/-! PROOF. InvalidKeyFormat: the check of a key stops each command that reads it (40_key_schedule.md R100,
60_exceptions.md R254). -/
namespace Sys2Proof.Machine

section invalidKeys

variable {s : State} {k k1 k2 : List Byte}

/-- A command whose pseudocode raises an error writes its code to STATUS and nothing else (60_exceptions.md R252). -/
theorem exec_raise {i : Instr} {e : ErrorKind} (h : execute i s = .error (.raise e)) :
    exec i s = .next { s with status := completed (errCode e) i.opcode, pend := none } :=
  exec_eq_next.2 (.inr ⟨e, h, rfl⟩)

theorem validKey_eq_false (h : ¬ AllDigits k) : validKey k = false :=
  Bool.eq_false_iff.2 (mt validKey_iff.1 h)

/-- A key that must have a digit is invalid with a non-digit, and when it is empty. -/
theorem validDigitKey_eq_false (h : ¬ AllDigits k ∨ k.length = 0) : validDigitKey k = false := by
  refine Bool.eq_false_iff.2 fun hv => ?_
  obtain ⟨hd, hne⟩ := validDigitKey_iff.1 hv
  exact h.elim (· hd) (hne <| List.length_eq_zero_iff.1 ·)

/-- The seed is refused at the first key with a non-digit: K1, or K2 after a valid K1. -/
theorem readSeed_invalid (h1 : K1Is s k1) (h : ¬ AllDigits k1 ∨ (AllDigits k1 ∧ K2Is s k2 ∧ ¬ AllDigits k2)) :
    readSeed s = .error (.raise .invalidKeyFormat) := by
  obtain hd1 | ⟨hd1, h2, hd2⟩ := h
  · simp [readSeed, readK1_eq_ok.2 h1, validKey_eq_false hd1]
  · simp [readSeed, readK1_eq_ok.2 h1, validKey_iff.2 hd1, readK2_eq_ok.2 h2, validKey_eq_false hd2]

/-- KEYEXP, ENCS and DECS stop where the seed is refused. -/
theorem execute_seed_raise {n : Byte} {e : ErrorKind} (hn : n.toNat ≤ Config.params.maxRounds)
    (h : readSeed s = .error (.raise e)) :
    execute (.keyexp n) s = .error (.raise e) ∧ execute .encs s = .error (.raise e) ∧
      execute .decs s = .error (.raise e) := by
  simp [execute, executeKeyexp, executeEncs, executeDecs, hn, h]

/-- PAD1 and UNPAD1 check K1 first. -/
theorem execute_pad_invalid (h1 : K1Is s k) (h : ¬ AllDigits k ∨ s.k1Len = 0) :
    execute .pad1 s = .error (.raise .invalidKeyFormat) ∧ execute .unpad1 s = .error (.raise .invalidKeyFormat) := by
  have hcheck : validDigitKey k = false := validDigitKey_eq_false (h1.1 ▸ h)
  simp [execute, executePad1, executeUnpad1, readK1_eq_ok.2 h1, hcheck]

/-- ROT and UNROT check K2 first. -/
theorem execute_rotation_invalid (h2 : K2Is s k) (h : ¬ AllDigits k ∨ s.k2Len = 0) :
    execute .rot s = .error (.raise .invalidKeyFormat) ∧ execute .unrot s = .error (.raise .invalidKeyFormat) := by
  have hcheck : validDigitKey k = false := validDigitKey_eq_false (h2.1 ▸ h)
  simp [execute, executeRot, executeUnrot, readK2_eq_ok.2 h2, hcheck]

end invalidKeys

/-- Settles O38: the first check of a key stops the pseudocode, which is an error completion with code 1. -/
theorem invalidKeyFormatRaised : Obligations.InvalidKeyFormatRaised := by
  unfold Obligations.InvalidKeyFormatRaised
  intro s n k1 k2 hn
  refine ⟨fun h1 hbad => ?_, fun h1 hbad => ?_, fun h2 hbad => ?_⟩
  · obtain ⟨hkeyexp, hencs, hdecs⟩ := execute_seed_raise hn (readSeed_invalid h1 hbad)
    exact ⟨exec_raise hkeyexp, exec_raise hencs, exec_raise hdecs⟩
  · obtain ⟨hpad, hunpad⟩ := execute_pad_invalid h1 hbad
    exact ⟨exec_raise hpad, exec_raise hunpad⟩
  · obtain ⟨hrot, hunrot⟩ := execute_rotation_invalid h2 hbad
    exact ⟨exec_raise hrot, exec_raise hunrot⟩

end Sys2Proof.Machine

/-! PROOF. The round engine: one layer, one key, and the rounds of block encryption and decryption
(41_round_engine.md R120 to R132). -/
namespace Sys2Proof.Machine

section layerLaws

variable (P : Params) (x : Block)

theorem sbox64_isbox64 : sbox64 P (isbox64 P x) = x :=
  block_eq_of_nibbles fun j hj => by
    rw [sbox64, nibble_mapNibbles _ _ hj, isbox64, nibble_mapNibbles _ _ hj, Equiv.apply_symm_apply]

theorem perm64_iperm64 : perm64 P (iperm64 P x) = x :=
  BitVec.eq_of_getLsbD_eq fun i hi => by
    obtain ⟨j, hj⟩ := P.perm.surjective ⟨i, hi⟩
    obtain rfl : (P.perm j).val = i := congrArg Fin.val hj
    rw [getLsbD_perm64, getLsbD_iperm64]

end layerLaws

section rounds

variable {P : Params} {m : Nat} {key xs : Nat → Block}

/-- The whitening key cancels, and then each round of `DecBlock` meets its own round of `EncBlock`
(41_round_engine.md R132). -/
theorem decBlock_encBlock : ∀ (x : Block) {rk : List Block}, rk ≠ [] → decBlock P (encBlock P x rk) rk = x
  | x, [k], _ => by rw [encBlock_single, decBlock_single, BitVec.xor_assoc, BitVec.xor_self, BitVec.xor_zero]
  | x, k :: k' :: rk, _ => by
    rw [encBlock_cons, decBlock_cons, decBlock_encBlock _ (List.cons_ne_nil k' rk), decRound_encRound]

theorem encBlock_concat (x k : Block) (rk : List Block) :
    encBlock P x (rk ++ [k]) = rk.foldl (encRound P) x ^^^ k := by
  simp [encBlock]

theorem decBlock_concat (x k : Block) (rk : List Block) :
    decBlock P x (rk ++ [k]) = rk.foldr (decRound P) (x ^^^ k) := by
  simp [decBlock]

/-- A sequence that goes on by encryption rounds ends where the loop of `EncBlock` does. -/
theorem foldl_encRound_keys (h : ∀ r, r < m → xs (r + 1) = encRound P (xs r) (key r)) :
    ((List.range m).map key).foldl (encRound P) (xs 0) = xs m := by
  induction m with
  | zero => rfl
  | succ m ih =>
    have hloop := ih fun r hr => h r (by omega)
    rw [List.range_succ, List.map_append, List.map_singleton, List.foldl_append, List.foldl_cons, List.foldl_nil, hloop,
      h m (by omega)]

/-- A sequence that goes back by decryption rounds ends where the loop of `DecBlock` does. -/
theorem foldr_decRound_keys (h : ∀ r, r < m → xs r = decRound P (key r) (xs (r + 1))) :
    ((List.range m).map key).foldr (decRound P) (xs m) = xs 0 := by
  induction m with
  | zero => rfl
  | succ m ih =>
    have hloop := ih fun r hr => h r (by omega)
    rw [List.range_succ, List.map_append, List.map_singleton, List.foldr_append, List.foldr_cons, List.foldr_nil,
      ← h m (by omega), hloop]

end rounds

section commands

variable {s t : State} {m : Nat} {key : Nat → Block}

/-- A command whose pseudocode commits answers the completed commit. -/
theorem exec_commit {i : Instr} (h : execute i s = .ok t) : exec i s = .next (t.finish 0 i.opcode) :=
  exec_eq_next.2 (.inl ⟨t, h, rfl⟩)

/-- NRK written keys, as the list that ENCB and DECB read. -/
theorem rkIs_of_cells (hn : s.nrk = m + 1) (hk : ∀ j, j ≤ m → rkCell s.mem j = some (key j)) :
    RkIs s ((List.range m).map key ++ [key m]) := by
  rw [show (List.range m).map key ++ [key m] = (List.range (m + 1)).map key by simp [List.range_succ]]
  refine ⟨by simp [hn], fun j hj => ?_⟩
  have hlt : j < m + 1 := by simpa using hj
  simp [hlt, hk j (by omega)]

end commands

/-- Settles O14: the index is checked before RK[r] is read. -/
theorem xorkResult : Obligations.XorkResult := by
  unfold Obligations.XorkResult
  refine fun s r => ⟨fun k hr hk => ?_, fun hr => ?_, fun hr hk => ?_⟩
  · exact exec_commit (i := .xork r) (executeXork_eq_ok.2 ⟨hr, k, hk, rfl⟩)
  · exact exec_raise (i := .xork r) (e := .keyIndexError) (by simp [execute, executeXork, Nat.not_lt.2 hr])
  · exact exec_unwritten (by simp [execute, executeXork, hr, readRkAt, hk])

/-- Settles O15: a substitution acts on each nibble by itself. -/
theorem subSubstitutesNibbles : Obligations.SubSubstitutesNibbles := by
  unfold Obligations.SubSubstitutesNibbles
  exact fun s => ⟨_, exec_commit rfl, fun _ hj => nibble_mapNibbles _ _ hj, rfl⟩

/-- Settles O16: the S-box layer takes the committed X back to X, nibble by nibble. -/
theorem isubInvertsNibbles : Obligations.IsubInvertsNibbles := by
  unfold Obligations.IsubInvertsNibbles
  refine fun s => ⟨_, exec_commit rfl, fun j hj => ?_, rfl⟩
  exact (nibble_mapNibbles _ _ hj).symm.trans (congrArg (nibble · j) (sbox64_isbox64 Config.params s.x))

/-- Settles O17: the committed X is the permuted one, bit by bit. -/
theorem permMovesBits : Obligations.PermMovesBits := by
  unfold Obligations.PermMovesBits
  exact fun s => ⟨_, exec_commit rfl, getLsbD_perm64 _ _, rfl⟩

/-- Settles O18: the committed X is the one permuted back, bit by bit. -/
theorem ipermMovesBitsBack : Obligations.IpermMovesBitsBack := by
  unfold Obligations.IpermMovesBitsBack
  exact fun s => ⟨_, exec_commit rfl, getLsbD_iperm64 _ _, rfl⟩

/-- Settles O19: the given sequence is the loop of `EncBlock` on the keys that ENCB reads. -/
theorem encbRunsRounds : Obligations.EncbRunsRounds := by
  unfold Obligations.EncbRunsRounds
  intro s m key xs hn hk h0 hround
  have hx : encBlock Config.params s.x ((List.range m).map key ++ [key m]) = xs m ^^^ key m := by
    rw [encBlock_concat, ← h0, foldl_encRound_keys hround]
  rw [← hx]
  exact exec_commit (i := .encb) (executeEncb_eq_ok.2 ⟨by omega, _, rkIs_of_cells hn hk, rfl⟩)

/-- Settles O20: the given sequence is the loop of `DecBlock` on the keys that DECB reads. -/
theorem decbUndoesRounds : Obligations.DecbUndoesRounds := by
  unfold Obligations.DecbUndoesRounds
  intro s m key xs hn hk hm hround
  have hx : decBlock Config.params s.x ((List.range m).map key ++ [key m]) = xs 0 := by
    rw [decBlock_concat, ← hm, foldr_decRound_keys hround]
  rw [← hx]
  exact exec_commit (i := .decb) (executeDecb_eq_ok.2 ⟨by omega, _, rkIs_of_cells hn hk, rfl⟩)

/-- Settles O22: the laws of the layers, and the rounds undone one by one. -/
theorem blockInverseLaws : Obligations.BlockInverseLaws := by
  unfold Obligations.BlockInverseLaws
  exact fun P x => ⟨isbox64_sbox64 P x, sbox64_isbox64 P x, iperm64_perm64 P x, perm64_iperm64 P x,
    fun _ => decBlock_encBlock x⟩

end Sys2Proof.Machine

/-! PROOF. The stream block processor: what ENCS and DECS commit, block by block, and that DECS undoes ENCS
(42_stream.md R160 to R166). -/
namespace Sys2Proof.Machine

/-- What a stream command with opcode `opc` leaves: the string `bits`, OLEN and the round keys `rk` are committed, and
the command is completed without an error (42_stream.md R163, R164). -/
def State.streamed (opc : Byte) (bits : Bits) (olen : Word) (rk : List Block) (s : State) : State :=
  (State.commitRk rk { s.commitS bits with olen := olen }).finish 0 opc

/-- The round keys of the stream commands: the 13-key schedule of the seed K1 ++ K2 (42_stream.md R163). -/
def streamKeys (k1 k2 : List Byte) : List Block := expandKey Config.params (k1 ++ k2) Config.streamRounds

@[simp] theorem length_streamKeys (k1 k2 : List Byte) : (streamKeys k1 k2).length = 13 := length_expandKey ..

theorem isSchedule_streamKeys (k1 k2 : List Byte) : IsSchedule Config.params (k1 ++ k2) 12 (streamKeys k1 k2) :=
  isSchedule_expandKey ..

section streamed

variable {opc : Byte} {bits : Bits} {olen : Word} {rk : List Block} {s : State}

@[simp] theorem streamed_sLen : (s.streamed opc bits olen rk).sLen = bits.length := rfl

@[simp] theorem streamed_olen : (s.streamed opc bits olen rk).olen = olen := rfl

theorem k1Is_streamed {k : List Byte} : K1Is (s.streamed opc bits olen rk) k ↔ K1Is s k := Iff.rfl

theorem k2Is_streamed {k : List Byte} : K2Is (s.streamed opc bits olen rk) k ↔ K2Is s k := Iff.rfl

theorem sIs_streamed : SIs (s.streamed opc bits olen rk) bits := sIs_commitS bits s

theorem rkIs_streamed : RkIs (s.streamed opc bits olen rk) rk := rkIs_commitRk rk _

/-- Round keys beyond the committed ones keep their marks (10_state.md R33). -/
theorem rkMarks_streamed {j : Nat} (h : rk.length ≤ j) :
    (cellGet (s.streamed opc bits olen rk).mem.rkHi j).isSome = (cellGet s.mem.rkHi j).isSome ∧
      (cellGet (s.streamed opc bits olen rk).mem.rkLo j).isSome = (cellGet s.mem.rkLo j).isSome :=
  marks_commitRk (rk := rk) { s.commitS bits with olen := olen } h

/-- Cells of S beyond the committed string keep their marks (10_state.md R33). -/
theorem sMarks_streamed (k : Nat) (h : (s.streamed opc bits olen rk).sLen ≤ k) :
    (cellGet (s.streamed opc bits olen rk).mem.s k).isSome = (cellGet s.mem.s k).isSome :=
  (congrArg Option.isSome (cellGet_cellCommit_ge (Config.freeS s.draws) s.mem.s h)).trans Option.isSome_map

/-- The frame of a stream command: it writes S, RK, their lengths, OLEN and STATUS. -/
theorem streamed_eq {n m : Nat} (hn : bits.length = n) (hm : rk.length = m) :
    s.streamed opc bits olen rk =
      { s with sLen := n, olen := olen, nrk := m, status := completed 0 opc, pend := none,
               draws := (s.streamed opc bits olen rk).draws,
               mem := { s.mem with rkHi := (s.streamed opc bits olen rk).mem.rkHi,
                                   rkLo := (s.streamed opc bits olen rk).mem.rkLo,
                                   s := (s.streamed opc bits olen rk).mem.s } } := by
  subst hn hm
  rfl

end streamed

section blocks

theorem lt_blockCount {n b : Nat} : b < blockCount n ↔ 64 * b < n := by
  unfold blockCount
  omega

theorem le_blockCount (n : Nat) : n ≤ 64 * blockCount n := by
  unfold blockCount
  omega

variable (P : Params) (s : Bits)

/-- Block b of the encrypted stream is the encryption of block b (42_stream.md R161). -/
theorem blockOf_encStream (rk : List Block) {b : Nat} (hb : b < blockCount s.length) :
    blockOf (encStream P s rk) b = encBlock P (blockOf s b) rk := by
  refine BitVec.eq_of_getLsbD_eq fun i hi => ?_
  have hbit := getLsbD_blockOf (encStream P s rk) b (j := 63 - i) (by omega)
  rwa [getElem?_encStream P s rk hb (by omega), show 63 - (63 - i) = i by omega] at hbit

/-- Decrypting the encrypted stream and keeping as many bits as there were gives the string back
(42_stream.md R165). -/
theorem decStream_encStream {rk : List Block} (hrk : rk ≠ []) : decStream P (encStream P s rk) rk s.length = s := by
  have hlen : (decStream P (encStream P s rk) rk s.length).length = s.length := by
    rw [length_decStream, length_encStream, Nat.mul_div_cancel_left _ (by decide), Nat.min_eq_left (le_blockCount _)]
  refine List.ext_getElem? fun k => ?_
  by_cases hk : k < s.length
  · have hb : k / 64 < blockCount s.length := lt_blockCount.2 (by omega)
    have hj : k % 64 < 64 := Nat.mod_lt k (by decide)
    have hbit := getElem?_decStream P (encStream P s rk) rk (m := s.length) (b := k / 64) (by simpa using hb) hj
      (by omega)
    rwa [blockOf_encStream P s rk hb, decBlock_encBlock _ hrk, getLsbD_blockOf s _ hj, Nat.div_add_mod,
      List.getElem?_eq_getElem hk, Option.getD_some, ← List.getElem?_eq_getElem hk] at hbit
  · rw [List.getElem?_eq_none (by omega), List.getElem?_eq_none (by omega)]

end blocks

section commands

variable {s : State} {k1 k2 : List Byte} {bits : Bits}

/-- On valid keys ENCS commits the encrypted string, the old length in OLEN, and the keys (42_stream.md R163). -/
theorem exec_encs (h1 : K1Is s k1) (hd1 : AllDigits k1) (h2 : K2Is s k2) (hd2 : AllDigits k2) (hs : SIs s bits) :
    exec .encs s = .next (s.streamed 0x10 (encStream Config.params bits (streamKeys k1 k2)) (BitVec.ofNat 32 s.sLen)
      (streamKeys k1 k2)) :=
  exec_commit (i := .encs) (executeEncs_eq_ok.2 ⟨_, bits, readSeed_eq_ok.2 ⟨k1, k2, h1, hd1, h2, hd2, rfl⟩, hs, rfl⟩)

/-- On valid keys and whole blocks DECS commits the first OLEN bits of the decrypted string, and the keys; OLEN is
kept (42_stream.md R164). -/
theorem exec_decs (h1 : K1Is s k1) (hd1 : AllDigits k1) (h2 : K2Is s k2) (hd2 : AllDigits k2) (hs : SIs s bits)
    (h64 : s.sLen % 64 = 0) (ho : s.olen.toNat ≤ s.sLen) :
    exec .decs s = .next (s.streamed 0x11 (decStream Config.params bits (streamKeys k1 k2) s.olen.toNat) s.olen
      (streamKeys k1 k2)) :=
  exec_commit (i := .decs)
    (executeDecs_eq_ok.2 ⟨_, bits, readSeed_eq_ok.2 ⟨k1, k2, h1, hd1, h2, hd2, rfl⟩, h64, ho, hs, rfl⟩)

/-- Bit 64b+j of S after ENCS is bit 63-j of the encryption of block b (42_stream.md R161, R163). -/
theorem cellGet_streamed_encStream (opc : Byte) (olen : Word) (rk : List Block) (hs : SIs s bits) {b j : Nat}
    (hb : b < blockCount s.sLen) (hj : j < 64) :
    cellGet (s.streamed opc (encStream Config.params bits rk) olen rk).mem.s (64 * b + j) =
      some ((encBlock Config.params (blockOf bits b) rk).getLsbD (63 - j)) := by
  obtain ⟨hlen, -⟩ := hs
  rw [← hlen] at hb
  rw [sIs_streamed.2 _ (by rw [length_encStream]; omega), getElem?_encStream _ _ _ hb hj]

/-- DECS keeps OLEN bits, which whole blocks hold (42_stream.md R162). -/
theorem length_decStream_olen (rk : List Block) (hs : SIs s bits) (h64 : s.sLen % 64 = 0)
    (ho : s.olen.toNat ≤ s.sLen) :
    (decStream Config.params bits rk s.olen.toNat).length = s.olen.toNat := by
  obtain ⟨hlen, -⟩ := hs
  rw [length_decStream]
  omega

/-- A legal length is recorded in OLEN as it is (10_state.md R25, R26). -/
theorem toNat_olen_of_le_maxBits {n : Nat} (h : n ≤ Config.params.maxBits) : (BitVec.ofNat 32 n).toNat = n := by
  obtain ⟨-, hmax, -⟩ := maxBits_bounds Config.params
  rw [BitVec.toNat_ofNat, Nat.mod_eq_of_lt (by omega)]

end commands

/-- Settles O26: the commit is the encrypted stream, block by block, with the 13 keys and the old length. -/
theorem encsEncryptsBlocks : Obligations.EncsEncryptsBlocks := by
  unfold Obligations.EncsEncryptsBlocks
  intro s k1 k2 bits h1 hd1 h2 hd2 hs
  exact ⟨_, streamKeys k1 k2, exec_encs h1 hd1 h2 hd2 hs, isSchedule_streamKeys .., rkIs_streamed,
    fun j hj => rkMarks_streamed ((length_streamKeys ..).trans_le hj),
    fun _ _ => cellGet_streamed_encStream _ _ _ hs, sMarks_streamed,
    streamed_eq (by rw [length_encStream, hs.1, blockCount]) (length_streamKeys ..)⟩

/-- Settles O27: the commit is the first OLEN bits of the decrypted stream, block by block, with the 13 keys. -/
theorem decsDecryptsBlocks : Obligations.DecsDecryptsBlocks := by
  unfold Obligations.DecsDecryptsBlocks
  intro s k1 k2 bits h1 hd1 h2 hd2 hs h64 ho
  have hkept := length_decStream_olen (streamKeys k1 k2) hs h64 ho
  refine ⟨_, streamKeys k1 k2, exec_decs h1 hd1 h2 hd2 hs h64 ho, isSchedule_streamKeys .., rkIs_streamed,
    fun j hj => rkMarks_streamed ((length_streamKeys ..).trans_le hj), fun b j hj hm => ?_, sMarks_streamed,
    streamed_eq hkept (length_streamKeys ..)⟩
  obtain ⟨hlen, -⟩ := hs
  rw [sIs_streamed.2 _ (by omega), getElem?_decStream _ _ _ (by omega) hj hm]

/-- Settles O28: ENCS leaves whole blocks, the old length in OLEN and the keys as they were, so DECS decrypts with the
same 13 keys and keeps exactly the bits there were. -/
theorem streamRoundTrip : Obligations.StreamRoundTrip := by
  unfold Obligations.StreamRoundTrip
  intro s k1 k2 bits h1 hd1 h2 hd2 hs hmax
  have holen := toNat_olen_of_le_maxBits hmax
  have hblocks : s.sLen ≤ (encStream Config.params bits (streamKeys k1 k2)).length := by
    rw [length_encStream, hs.1]
    exact le_blockCount s.sLen
  have hback : decStream Config.params (encStream Config.params bits (streamKeys k1 k2)) (streamKeys k1 k2)
      (BitVec.ofNat 32 s.sLen).toNat = bits := by
    rw [holen, ← hs.1]
    exact decStream_encStream _ _ (List.ne_nil_of_length_pos (by simp))
  refine ⟨_, _, exec_encs h1 hd1 h2 hd2 hs,
    exec_decs (k1Is_streamed.2 h1) hd1 (k2Is_streamed.2 h2) hd2 sIs_streamed ?_ ?_, ?_⟩
  · rw [streamed_sLen, length_encStream, Nat.mul_mod_right]
  · rwa [streamed_olen, streamed_sLen, holen]
  · rw [streamed_olen, hback]
    exact sIs_streamed

/-- Settles O29: in both states block b of S is the encryption of the same block with the same keys. -/
theorem blocksAreIndependent : Obligations.BlocksAreIndependent := by
  unfold Obligations.BlocksAreIndependent
  intro s s' t t' k1 k2 bits bits' b h1 h2 hd1 hd2 h1' h2' hs hs' hb hb' hblock ht ht' j hj
  rw [exec_encs h1 hd1 h2 hd2 hs] at ht
  rw [exec_encs h1' hd1 h2' hd2 hs'] at ht'
  cases ht
  cases ht'
  rw [cellGet_streamed_encStream _ _ _ hs (lt_blockCount.2 hb) hj,
    cellGet_streamed_encStream _ _ _ hs' (lt_blockCount.2 hb') hj, hblock]
  exact ⟨rfl, rfl⟩

end Sys2Proof.Machine

/-! PROOF. The zero-pad insertion engine: where PAD1 puts each bit, when it overflows, and that UNPAD1 takes the bits
back from there (43_pad.md R180 to R185). -/
namespace Sys2Proof.Machine

section committedString

variable {s : State} {t : Bits}

/-- Cells of S beyond a committed string keep their marks (10_state.md R33). -/
theorem marks_commitS {j : Nat} (h : t.length ≤ j) :
    (cellGet (s.commitS t).mem.s j).isSome = (cellGet s.mem.s j).isSome := by
  rw [commitS_mem_s, cellGet_cellCommit_ge _ _ h, Option.isSome_map]

/-- The frame of a command that commits a string alone: it writes S, S_LEN and STATUS. -/
theorem finish_commitS_eq (opc : Byte) {n : Nat} (hn : t.length = n) :
    (s.commitS t).finish 0 opc =
      { s with sLen := n, status := completed 0 opc, pend := none, draws := (s.commitS t).draws,
               mem := { s.mem with s := (s.commitS t).mem.s } } := by
  subst hn
  rfl

end committedString

section padded

variable {s : State} {k : List Byte} {bits u : Bits}

/-- The length of a whole padded string is where a next bit would stand (43_pad.md R185). -/
theorem length_pad1From_zero (k : List Byte) (bits : Bits) : (pad1From k 0 bits).length = padPos k bits.length := by
  simpa [padPos_zero] using length_pad1From k 0 bits

/-- After the padded string is committed, bit i stands in the cell at its place (43_pad.md R180). -/
theorem cellGet_commitS_pad1From_padPos {i : Nat} (hi : i < bits.length) :
    cellGet (s.commitS (pad1From k 0 bits)).mem.s (padPos k i) = bits[i]? := by
  have hplace : padPos k i < (pad1From k 0 bits).length := by
    rw [length_pad1From_zero]
    exact padPos_lt hi
  rw [commitS_mem_s, cellGet_cellCommit_lt _ _ hplace]
  simpa [padPos_zero] using getElem?_pad1From_padPos k 0 hi

/-- After the padded string is committed, every cell of it that is no bit's place is zero (43_pad.md R180). -/
theorem cellGet_commitS_pad1From_other {p : Nat} (hp : p < (pad1From k 0 bits).length)
    (hother : ∀ i, i < bits.length → padPos k i ≠ p) :
    cellGet (s.commitS (pad1From k 0 bits)).mem.s p = some false := by
  rw [commitS_mem_s, cellGet_cellCommit_lt _ _ hp]
  exact getElem?_pad1From_other k 0 hp (by simpa [padPos_zero] using hother)

/-- On a valid key PAD1 commits the padded string when it fits (43_pad.md R182). -/
theorem exec_pad1 (hk : K1Is s k) (hd : AllDigits k) (hne : k ≠ []) (hs : SIs s bits)
    (hfit : padPos k bits.length ≤ Config.params.maxBits) :
    exec .pad1 s = .next ((s.commitS (pad1From k 0 bits)).finish 0 0x20) :=
  exec_commit (i := .pad1)
    (executePad1_eq_ok.2 ⟨k, bits, hk, hd, hne, hs, (length_pad1From_zero k bits).trans_le hfit, rfl⟩)

/-- On a valid key PAD1 raises CapacityOverflow when the padded string does not fit (43_pad.md R182). -/
theorem execute_pad1_overflow (hk : K1Is s k) (hd : AllDigits k) (hne : k ≠ []) (hs : SIs s bits)
    (hbig : Config.params.maxBits < padPos k bits.length) :
    execute .pad1 s = .error (.raise .capacityOverflow) := by
  have hcheck : ¬ (pad1From k 0 bits).length ≤ Config.params.maxBits := by rw [length_pad1From_zero]; omega
  simp [execute, executePad1, readK1_eq_ok.2 hk, validDigitKey_iff.2 ⟨hd, hne⟩, readS_eq_ok.2 hs, hcheck]

/-- On a valid key and complete groups UNPAD1 commits the first bit of each group (43_pad.md R183). -/
theorem exec_unpad1 (hk : K1Is s k) (hd : AllDigits k) (hne : k ≠ []) (hlen : s.sLen = padPos k u.length)
    (hu : ∀ i, i < u.length → cellGet s.mem.s (padPos k i) = u[i]?) :
    exec .unpad1 s = .next ((s.commitS u).finish 0 0x21) := by
  have hgroups : unpad1From (cellGet s.mem.s) k s.sLen s.sLen (padPos k 0) 0 = .ok u :=
    unpad1From_eq_ok (by rw [hlen, Nat.zero_add]) (hlen ▸ le_padPos k u.length) (by simpa using hu)
  rw [padPos_zero] at hgroups
  exact exec_commit (i := .unpad1) (executeUnpad1_eq_ok.2 ⟨k, u, hk, hd, hne, hgroups, rfl⟩)

end padded

/-- Settles O31: the commit is the padded string, whose places are those of the bits and the zeros between them. -/
theorem pad1InsertsZeros : Obligations.Pad1InsertsZeros := by
  unfold Obligations.Pad1InsertsZeros
  intro s k bits hk hd hne hs hfit
  have hlen := hs.1
  rw [← hlen] at hfit ⊢
  exact ⟨_, exec_pad1 hk hd hne hs hfit, fun _ => cellGet_commitS_pad1From_padPos,
    fun _ => cellGet_commitS_pad1From_other, fun _ => marks_commitS,
    finish_commitS_eq _ (length_pad1From_zero k bits)⟩

/-- Settles O32: the check of the padded length is the last one, and it stops the pseudocode. -/
theorem pad1Overflow : Obligations.Pad1Overflow := by
  unfold Obligations.Pad1Overflow
  intro s k bits hk hd hne hs hbig
  rw [← hs.1] at hbig
  exact exec_raise (execute_pad1_overflow hk hd hne hs hbig)

/-- Settles O33: the commit is the string of the first bits, the only cells of S that UNPAD1 reads. -/
theorem unpad1KeepsRealBits : Obligations.Unpad1KeepsRealBits := by
  unfold Obligations.Unpad1KeepsRealBits
  intro s k u hk hd hne hlen hu
  exact ⟨_, exec_unpad1 hk hd hne hlen hu, sIs_commitS u s, fun _ => marks_commitS, finish_commitS_eq _ rfl⟩

/-- Settles O34: PAD1 leaves K1 as it was and complete groups whose first bits are the string, so UNPAD1 commits it. -/
theorem padRoundTrip : Obligations.PadRoundTrip := by
  unfold Obligations.PadRoundTrip
  intro s k bits hk hd hne hs hfit
  rw [← hs.1] at hfit
  exact ⟨_, _, exec_pad1 hk hd hne hs hfit,
    exec_unpad1 hk hd hne (length_pad1From_zero k bits) fun _ => cellGet_commitS_pad1From_padPos, sIs_commitS bits _⟩

end Sys2Proof.Machine

/-! PROOF. The cyclic bit-rotation engine: what ROT commits, what UNROT commits, and that the second undoes the first
(44_rotate.md R200 to R206). -/
namespace Sys2Proof.Machine

section rotations

variable {k : List Byte} {b : Bits}

/-- A left rotation is undone by the right rotation of the same distance (44_rotate.md R200). -/
theorem rotr_rotl (b : Bits) (n : Nat) : rotr (rotl b n) n = b := by
  have hfront : (b.drop n).length = b.length - n := List.length_drop
  rw [rotr, length_rotl, rotl, List.drop_left' hfront, List.take_left' hfront, List.take_append_drop]

/-- `Rot` on a string that is not empty: the rotation and the shift of the first digit, then those of the rest
(44_rotate.md R201). -/
theorem rotFrom_cons (c : Byte) (i : Nat) (hb : b ≠ []) :
    rotFrom (c :: k) i b =
      ((rotFrom k (i + 1) (rotl b ((digit c * i) % b.length))).1,
        (digit c * i) % b.length :: (rotFrom k (i + 1) (rotl b ((digit c * i) % b.length))).2) := by
  rw [rotFrom, if_neg (mt List.length_eq_zero_iff.1 hb)]

/-- `Unrot` undoes the first shift last; a shift of zero is a rotation too (44_rotate.md R202). -/
theorem unrot_cons (n : Nat) (sh : List Nat) : unrot b (n :: sh) = rotr (unrot b sh) n := by
  simp only [unrot, List.foldr_cons]
  split
  · next hn => simp [rotr, hn]
  · rfl

theorem rotl_ne_nil {n : Nat} (hb : b ≠ []) : rotl b n ≠ [] := by
  rwa [← List.length_pos_iff, length_rotl, List.length_pos_iff]

/-- Undoing the recorded shifts gives the string back (44_rotate.md R206). -/
theorem unrot_rotFrom (k : List Byte) (i : Nat) (b : Bits) : unrot (rotFrom k i b).1 (rotFrom k i b).2 = b := by
  obtain rfl | hb := eq_or_ne b []
  · rw [rotFrom_nil]; rfl
  · induction k generalizing i b with
    | nil => rfl
    | cons c k ih =>
      rw [rotFrom_cons c i hb, unrot_cons, ih _ _ (rotl_ne_nil hb), rotr_rotl]

/-- On a string that is not empty, one shift is recorded for each digit (44_rotate.md R205). -/
theorem length_rotFrom_snd (i : Nat) (hb : b ≠ []) : (rotFrom k i b).2.length = k.length := by
  induction k generalizing i b with
  | nil => rfl
  | cons c k ih => rw [rotFrom_cons c i hb, List.length_cons, ih _ (rotl_ne_nil hb), List.length_cons]

/-- Every recorded shift is below the length of the string (44_rotate.md R205). -/
theorem lt_length_of_mem_rotFrom_snd {i v : Nat} (hv : v ∈ (rotFrom k i b).2) : v < b.length := by
  obtain rfl | hb := eq_or_ne b []
  · simp [rotFrom_nil] at hv
  · induction k generalizing i b with
    | nil => simp [rotFrom] at hv
    | cons c k ih =>
      rw [rotFrom_cons c i hb, List.mem_cons] at hv
      obtain rfl | hrest := hv
      · exact Nat.mod_lt _ (List.length_pos_iff.2 hb)
      · simpa using ih hrest (rotl_ne_nil hb)

end rotations

/-- SH after ROT: the recorded shifts as words (44_rotate.md R203). -/
def shiftWords (k : List Byte) (bits : Bits) : List Word := (rotFrom k 1 bits).2.map (BitVec.ofNat 32)

/-- The state after ROT: the rotated string and the recorded shifts are committed (44_rotate.md R203). -/
def State.rotated (k : List Byte) (bits : Bits) (s : State) : State :=
  ((s.commitS (rotFrom k 1 bits).1).commitSh (shiftWords k bits)).finish 0 0x22

section shiftWords

variable {k : List Byte} {bits : Bits}

/-- ROT records as many shifts as UNROT expects (44_rotate.md R204, R205). -/
theorem length_shiftWords (k : List Byte) (bits : Bits) :
    (shiftWords k bits).length = if 0 < bits.length then k.length else 0 := by
  rw [shiftWords, List.length_map]
  obtain rfl | hb := eq_or_ne bits []
  · rw [rotFrom_nil]; rfl
  · rw [length_rotFrom_snd 1 hb, if_pos (List.length_pos_iff.2 hb)]

/-- The shifts of a legal string fit their words. -/
theorem map_toNat_shiftWords (hmax : bits.length ≤ Config.params.maxBits) :
    (shiftWords k bits).map BitVec.toNat = (rotFrom k 1 bits).2 := by
  have hfits : ∀ v ∈ (rotFrom k 1 bits).2, (BitVec.ofNat 32 v).toNat = v := fun v hv =>
    toNat_olen_of_le_maxBits ((lt_length_of_mem_rotFrom_snd hv).le.trans hmax)
  rw [shiftWords, List.map_map]
  exact (List.map_congr_left hfits).trans (List.map_id' _)

theorem toNat_lt_of_mem_shiftWords (hmax : bits.length ≤ Config.params.maxBits) {v : Word}
    (hv : v ∈ shiftWords k bits) : v.toNat < bits.length :=
  lt_length_of_mem_rotFrom_snd (map_toNat_shiftWords hmax ▸ List.mem_map_of_mem hv)

end shiftWords

section rotated

variable {s : State} {k : List Byte} {bits : Bits}

theorem k2Is_rotated {k' : List Byte} : K2Is (s.rotated k bits) k' ↔ K2Is s k' := Iff.rfl

theorem sIs_rotated (s : State) (k : List Byte) (bits : Bits) : SIs (s.rotated k bits) (rotFrom k 1 bits).1 :=
  sIs_commitS _ s

theorem shIs_rotated (s : State) (k : List Byte) (bits : Bits) : ShIs (s.rotated k bits) (shiftWords k bits) :=
  shIs_commitSh _ _

/-- What S and SH hold after ROT, given what `Rot` answers (44_rotate.md R203). -/
theorem holds_rotated {t : Bits} {sh : List Nat} (h : rotFrom k 1 bits = (t, sh)) :
    SIs (s.rotated k bits) t ∧ ShIs (s.rotated k bits) (sh.map (BitVec.ofNat 32)) := by
  have hstring := sIs_rotated s k bits
  have hshifts := shIs_rotated s k bits
  rw [h] at hstring
  rw [shiftWords, h] at hshifts
  exact ⟨hstring, hshifts⟩

/-- Cells of S beyond the rotated string keep their marks (10_state.md R33). -/
theorem sMarks_rotated (j : Nat) (h : (s.rotated k bits).sLen ≤ j) :
    (cellGet (s.rotated k bits).mem.s j).isSome = (cellGet s.mem.s j).isSome :=
  marks_commitS h

/-- Cells of SH beyond the recorded shifts keep their marks (10_state.md R33). -/
theorem shMarks_rotated (j : Nat) (h : (s.rotated k bits).shLen ≤ j) :
    (cellGet (s.rotated k bits).mem.sh j).isSome = (cellGet s.mem.sh j).isSome :=
  (congrArg Option.isSome (cellGet_cellCommit_ge _ s.mem.sh h)).trans Option.isSome_map

theorem rotated_sLen (hs : SIs s bits) : (s.rotated k bits).sLen = s.sLen :=
  (length_rotFrom_fst k 1 bits).trans hs.1

/-- The frame of ROT: it writes the cells of S, SH, SH_LEN and STATUS. -/
theorem rotated_eq (hs : SIs s bits) :
    s.rotated k bits =
      { s with shLen := (s.rotated k bits).shLen, status := completed 0 0x22, pend := none,
               draws := (s.rotated k bits).draws,
               mem := { s.mem with s := (s.rotated k bits).mem.s, sh := (s.rotated k bits).mem.sh } } :=
  congrArg (fun n => { s.rotated k bits with sLen := n }) (rotated_sLen hs)

/-- On a valid key ROT commits the rotated string and the shifts (44_rotate.md R203). -/
theorem exec_rot (hk : K2Is s k) (hd : AllDigits k) (hne : k ≠ []) (hs : SIs s bits) :
    exec .rot s = .next (s.rotated k bits) :=
  exec_commit (i := .rot) (executeRot_eq_ok.2 ⟨k, bits, hk, hd, hne, hs, rfl⟩)

/-- On a valid key and shifts as ROT would record them UNROT commits the string rotated back (44_rotate.md R204). -/
theorem exec_unrot {sh : List Word} (hk : K2Is s k) (hd : AllDigits k) (hne : k ≠ [])
    (hlen : s.shLen = expectedShifts s) (hsh : ShIs s sh) (hlt : ∀ v ∈ sh, v.toNat < s.sLen) (hs : SIs s bits) :
    exec .unrot s = .next ((s.commitS (unrot bits (sh.map BitVec.toNat))).finish 0 0x23) :=
  exec_commit (i := .unrot) (executeUnrot_eq_ok.2 ⟨k, sh, bits, hk, hd, hne, hlen, hsh, hlt, hs, rfl⟩)

/-- After ROT, SH_LEN is what UNROT expects (44_rotate.md R204, R205). -/
theorem rotated_shLen_eq_expectedShifts (hk : K2Is s k) :
    (s.rotated k bits).shLen = expectedShifts (s.rotated k bits) := by
  have hstring : (s.rotated k bits).sLen = bits.length := length_rotFrom_fst k 1 bits
  have hkey : (s.rotated k bits).k2Len = k.length := hk.1.symm
  have hshifts : (s.rotated k bits).shLen = (shiftWords k bits).length := rfl
  rw [hshifts, length_shiftWords, expectedShifts, hstring, hkey]

end rotated

/-- Settles O35: the commit is the end of the loop of `Rot` and its shifts; on an empty string the loop does nothing. -/
theorem rotRotates : Obligations.RotRotates := by
  unfold Obligations.RotRotates
  intro s k bits cur hk hd hne hs h0 hcur
  refine ⟨_, exec_rot hk hd hne hs, fun hpos => ?_, fun hzero => ?_, sMarks_rotated, shMarks_rotated, rotated_eq hs⟩
  · have hrot : rotFrom k 1 bits = (cur k.length, (List.range k.length).map (rotShift k s.sLen)) :=
      rotFrom_eq k 1 cur _ hs.1 hpos h0 (fun j _ => by rw [rotShift, digit, Nat.add_comm 1 j]) hcur
    have hholds := holds_rotated (s := s) hrot
    rwa [List.map_map] at hholds
  · obtain rfl : bits = [] := List.length_eq_zero_iff.1 (hs.1.trans hzero)
    exact holds_rotated (rotFrom_nil k 1)

/-- Settles O36: the commit is the string at the end of the loop of `Unrot`, of the same length. -/
theorem unrotUndoesShifts : Obligations.UnrotUndoesShifts := by
  unfold Obligations.UnrotUndoesShifts
  intro s k sh bits cur hk hd hne hsh hs hlen hlt hlast hcur
  have hunrot : unrot bits (sh.map BitVec.toNat) = cur 0 :=
    unrot_eq _ cur hs.1 (by rwa [List.length_map]) fun j hj => by
      rw [List.getElem_map]
      exact hcur j (by simpa using hj)
  have hlength : (cur 0).length = s.sLen := by rw [← hunrot, length_unrot, hs.1]
  refine ⟨(s.commitS (cur 0)).finish 0 0x23, ?_, sIs_commitS (cur 0) s, fun _ => marks_commitS,
    finish_commitS_eq 0x23 hlength⟩
  rw [exec_unrot hk hd hne hlen hsh hlt hs, hunrot]

/-- Settles O37: ROT leaves K2 as it was and the shifts that UNROT expects, and undoing them gives the string back. -/
theorem rotateRoundTrip : Obligations.RotateRoundTrip := by
  unfold Obligations.RotateRoundTrip
  intro s k bits hk hd hne hs hmax
  rw [← hs.1] at hmax
  have hlt : ∀ v ∈ shiftWords k bits, v.toNat < (s.rotated k bits).sLen := fun v hv => by
    rw [rotated_sLen hs, ← hs.1]
    exact toNat_lt_of_mem_shiftWords hmax hv
  refine ⟨_, _, exec_rot hk hd hne hs,
    exec_unrot (k2Is_rotated.2 hk) hd hne (rotated_shLen_eq_expectedShifts hk) (shIs_rotated ..) hlt
      (sIs_rotated ..), ?_⟩
  rw [map_toNat_shiftWords hmax, unrot_rotFrom]
  exact sIs_commitS bits _

end Sys2Proof.Machine

/-! PROOF. The completion step: it is the decoded command, it writes STATUS and PEND, and NOP writes nothing else
(45_control.md R220, R222). -/
namespace Sys2Proof.Machine

/-- Bits 31:24 of a command's word are its opcode (30_encoding.md R80, R81). -/
theorem opcField_encode (i : Instr) : opcField (encode i) = i.opcode := (encode_eq_iff.1 rfl).1

/-- Settles O8: a commit and an error both end in the write of STATUS and PEND, with code 0 or the error's own. -/
theorem completionWritesStatus : Obligations.CompletionWritesStatus := by
  unfold Obligations.CompletionWritesStatus
  intro i s t h
  have hopc : i.opcode = (encode i).extractLsb' 24 8 := (opcField_encode i).symm
  obtain ⟨u, -, rfl⟩ | ⟨e, -, rfl⟩ := exec_eq_next.1 h
  · exact ⟨rfl, rfl, rfl, hopc, Nat.zero_le 6⟩
  · exact ⟨rfl, rfl, rfl, hopc, (errCode_legal e).1⟩

/-- Settles O7: the sequencer moves, and it completes the word as the command it decodes to. -/
theorem stepRunsDecodedCommand : Obligations.StepRunsDecodedCommand := by
  unfold Obligations.StepRunsDecodedCommand
  intro s w i hp hl hi
  exact (step_of_latency_zero hp hl).trans (completeCommand_of_decode hi)

/-- Settles O13: NOP commits the state it finds, so its completion writes STATUS and PEND alone. -/
theorem nopClearsError : Obligations.NopClearsError := by
  unfold Obligations.NopClearsError
  intro s
  have hstatus : statusWord (completed 0 0x00) = 0x00000002#32 := by decide
  exact ⟨_, exec_commit (i := .nop) rfl, rfl, congrArg Except.ok hstatus⟩

end Sys2Proof.Machine

/-! PROOF. The host's codec: a character is 7 bits, most significant first, and both directions go character by
character (47_host_codec.md R231, R232). -/
namespace Sys2Proof.Machine

@[simp] theorem length_charBits (c : Nat) : (charBits c).length = 7 := rfl

theorem bitsNat_concat (b : Bits) (x : Bool) : bitsNat (b ++ [x]) = 2 * bitsNat b + x.toNat := by
  simp [bitsNat]

/-- The `n` low bits of `c`, most significant first, are the digits of `c` modulo `2 ^ n`: the last digit is the parity
and the others are those of `c / 2`. -/
theorem bitsNat_testBits (n c : Nat) :
    bitsNat ((List.range n).map fun k => c.testBit (n - 1 - k)) = c % 2 ^ n := by
  induction n generalizing c with
  | zero => simp [bitsNat, Nat.mod_one]
  | succ n ih =>
    have hhigh : ((List.range n).map fun k => c.testBit (n - k)) =
        (List.range n).map fun k => (c / 2).testBit (n - 1 - k) :=
      List.map_congr_left fun k hk => by
        have hlt : k < n := List.mem_range.1 hk
        rw [← Nat.testBit_add_one, show n - 1 - k + 1 = n - k by omega]
    rw [List.range_succ, List.map_append, List.map_singleton, bitsNat_concat, Nat.add_sub_cancel, hhigh, ih,
      Nat.sub_self, Nat.toNat_testBit, Nat.pow_zero, Nat.div_one, Nat.pow_succ', Nat.mod_mul, Nat.add_comm]

theorem bitsNat_charBits {c : Nat} (h : c ≤ 127) : bitsNat (charBits c) = c :=
  (bitsNat_testBits 7 c).trans (Nat.mod_eq_of_lt (Nat.lt_succ_of_le h))

theorem textToBits_cons {c : Nat} (h : c ≤ 127) (rest : List Nat) :
    textToBits (c :: rest) = (charBits c ++ ·) <$> textToBits rest := by
  rw [textToBits, if_neg (Nat.not_lt.2 h)]
  cases textToBits rest <;> rfl

theorem textToBits_cons_of_gt {c : Nat} (h : 127 < c) (rest : List Nat) :
    textToBits (c :: rest) = .error .formatError := if_pos h

theorem textToBits_eq_ok {text : List Nat} (h : ∀ c ∈ text, c ≤ 127) :
    textToBits text = .ok (text.flatMap charBits) := by
  induction text with
  | nil => rfl
  | cons c rest ih =>
    obtain ⟨hc, hrest⟩ := List.forall_mem_cons.1 h
    rw [textToBits_cons hc, ih hrest]
    rfl

theorem textToBits_eq_error {text : List Nat} (h : ∃ c ∈ text, 127 < c) : textToBits text = .error .formatError := by
  induction text with
  | nil => simp at h
  | cons c rest ih =>
    rcases Nat.lt_or_ge 127 c with hc | hc
    · exact textToBits_cons_of_gt hc rest
    · have hrest : ∃ d ∈ rest, 127 < d := (List.exists_mem_cons_iff ..).1 h |>.resolve_left (Nat.not_lt.2 hc)
      rw [textToBits_cons hc, ih hrest]
      rfl

theorem bitsToText_of_misaligned {b : Bits} (h : b.length % 7 ≠ 0) : bitsToText b = .error .formatError := if_pos h

/-- A leading 7-bit group is one character, and the rest of the bits are read as they are by themselves. -/
theorem bitsToText_append {g : Bits} (hg : g.length = 7) (b : Bits) :
    bitsToText (g ++ b) = (bitsNat g :: ·) <$> bitsToText b := by
  have hlen : (g ++ b).length = b.length + 7 := by rw [List.length_append, hg, Nat.add_comm]
  by_cases h : b.length % 7 = 0
  · have hdrop (j : Nat) : (g ++ b).drop (7 * (j + 1)) = b.drop (7 * j) := by
      rw [Nat.mul_succ, Nat.add_comm, ← hg, List.drop_length_add_append]
    have htake : (g ++ b).take 7 = g := List.take_left' hg
    simp [bitsToText, hlen, h, hdrop, htake, List.range_succ_eq_map]
  · rw [bitsToText_of_misaligned h, bitsToText_of_misaligned (by omega)]
    rfl

theorem bitsToText_flatMap_charBits {text : List Nat} (h : ∀ c ∈ text, c ≤ 127) :
    bitsToText (text.flatMap charBits) = .ok text := by
  induction text with
  | nil => rfl
  | cons c rest ih =>
    obtain ⟨hc, hrest⟩ := List.forall_mem_cons.1 h
    rw [List.flatMap_cons, bitsToText_append (length_charBits c), bitsNat_charBits hc, ih hrest]
    rfl

/-- Settles O60: within 127 the bits are those of the characters in order, read back group by group; the first code
above 127 and a misaligned length are the two FormatErrors. -/
theorem codecRoundTrip : Obligations.CodecRoundTrip := by
  unfold Obligations.CodecRoundTrip
  refine ⟨fun text h => ⟨_, textToBits_eq_ok h, ?_, bitsToText_flatMap_charBits h⟩,
    fun _ => textToBits_eq_error, fun _ => bitsToText_of_misaligned⟩
  simp [List.length_flatMap, Nat.mul_comm]

end Sys2Proof.Machine

/-! PROOF. The errors of the commands: each is one check that fails, and it leaves all but STATUS and PEND as it was
(60_exceptions.md R252 to R259). -/
namespace Sys2Proof.Machine

section failedChecks

variable {s : State} {k : List Byte}

/-- ENCB and DECB check NRK first. -/
theorem execute_blockCipher_noKeys (h : s.nrk = 0) :
    execute .encb s = .error (.raise .keyIndexError) ∧ execute .decb s = .error (.raise .keyIndexError) := by
  simp [execute, executeEncb, executeDecb, h]

/-- DECS checks S_LEN after the seed, and before OLEN. -/
theorem execute_decs_partialBlock {seed : List Byte} (hseed : readSeed s = .ok seed) (h64 : s.sLen % 64 ≠ 0) :
    execute .decs s = .error (.raise .formatError) := by
  simp [execute, executeDecs, hseed, h64]

/-- On whole blocks DECS checks OLEN against S_LEN. -/
theorem execute_decs_olen {seed : List Byte} (hseed : readSeed s = .ok seed) (h64 : s.sLen % 64 = 0)
    (ho : s.sLen < s.olen.toNat) : execute .decs s = .error (.raise .lengthMismatch) := by
  simp [execute, executeDecs, hseed, h64, Nat.not_le.2 ho]

/-- UNPAD1 stops where S ends inside a group, the groups before it being complete and their first bits written. -/
theorem execute_unpad1_incomplete {m : Nat} (hk : K1Is s k) (hd : AllDigits k) (hne : k ≠ [])
    (hstart : padPos k m < s.sLen) (hend : s.sLen < padPos k (m + 1))
    (hsome : ∀ i, i < m → (cellGet s.mem.s (padPos k i)).isSome) :
    execute .unpad1 s = .error (.raise .formatError) := by
  have hfuel : m < s.sLen := (le_padPos k m).trans_lt hstart
  have hgroups := unpad1From_eq_formatError (get := cellGet s.mem.s) (k := k) (m := m) (n := s.sLen) (f := s.sLen)
    (i := 0) (by simpa using hstart) (by simpa using hend) hfuel (by simpa using hsome)
  rw [padPos_zero] at hgroups
  simp [execute, executeUnpad1, readK1_eq_ok.2 hk, validDigitKey_iff.2 ⟨hd, hne⟩, hgroups]

/-- UNROT checks SH_LEN after K2, before it reads SH. -/
theorem execute_unrot_shLen (hk : K2Is s k) (hd : AllDigits k) (hne : k ≠ []) (hlen : s.shLen ≠ expectedShifts s) :
    execute .unrot s = .error (.raise .lengthMismatch) := by
  simp [execute, executeUnrot, readK2_eq_ok.2 hk, validDigitKey_iff.2 ⟨hd, hne⟩, hlen]

/-- UNROT checks every shift against S_LEN before it reads S. -/
theorem execute_unrot_shift {sh : List Word} (hk : K2Is s k) (hd : AllDigits k) (hne : k ≠ [])
    (hlen : s.shLen = expectedShifts s) (hsh : ShIs s sh) (hbig : ∃ v ∈ sh, s.sLen ≤ v.toNat) :
    execute .unrot s = .error (.raise .lengthMismatch) := by
  have hcheck : (sh.all fun v => decide (v.toNat < s.sLen)) = false := by simpa using hbig
  simp [execute, executeUnrot, readK2_eq_ok.2 hk, validDigitKey_iff.2 ⟨hd, hne⟩, hlen, readSh_eq_ok.2 hsh, hcheck]

end failedChecks

/-- Settles O9: a commit writes ERR 0, and an error is written to the state the command found. -/
theorem errorWritesOnlyStatus : Obligations.ErrorWritesOnlyStatus := by
  unfold Obligations.ErrorWritesOnlyStatus
  intro i s t h herr
  obtain ⟨u, -, rfl⟩ | ⟨e, -, rfl⟩ := exec_eq_next.1 h
  · exact absurd rfl herr
  · rfl

/-- Settles O39: with the keys valid, the check of S_LEN is the next one of DECS, and UNPAD1 checks each group before
it reads the group's bit. -/
theorem formatErrorRaised : Obligations.FormatErrorRaised := by
  unfold Obligations.FormatErrorRaised
  intro s k1 k2 h1 hd1
  refine ⟨fun h2 hd2 h64 => ?_, fun m hne hstart hend hsome => ?_⟩
  · exact exec_raise (execute_decs_partialBlock (readSeed_eq_ok.2 ⟨k1, k2, h1, hd1, h2, hd2, rfl⟩) h64)
  · exact exec_raise (execute_unpad1_incomplete h1 hd1 hne hstart hend hsome)

/-- Settles O40: with the keys valid, DECS checks OLEN last, and UNROT checks the number of shifts and then each. -/
theorem lengthMismatchRaised : Obligations.LengthMismatchRaised := by
  unfold Obligations.LengthMismatchRaised
  intro s k1 k2 h2 hd2
  refine ⟨fun h1 hd1 h64 ho => ?_, fun hne hlen => ?_, fun sh hne hlen hsh hbig => ?_⟩
  · exact exec_raise (execute_decs_olen (readSeed_eq_ok.2 ⟨k1, k2, h1, hd1, h2, hd2, rfl⟩) h64 ho)
  · exact exec_raise (execute_unrot_shLen h2 hd2 hne hlen)
  · exact exec_raise (execute_unrot_shift h2 hd2 hne hlen hsh hbig)

/-- Settles O21: the check of the key index comes first in XORK, ENCB and DECB. -/
theorem keyIndexErrors : Obligations.KeyIndexErrors := by
  unfold Obligations.KeyIndexErrors
  exact fun s => ⟨fun r => (xorkResult s r).2.1, fun h => exec_raise (execute_blockCipher_noKeys h).1,
    fun h => exec_raise (execute_blockCipher_noKeys h).2⟩

end Sys2Proof.Machine

/-! PROOF. The BUSY protocol and reset (70_reset_and_hazards.md R280 to R285). -/
namespace Sys2Proof.Machine

section busy

variable (P : Params) {s : State} {a : Addr} {bytes : Nat}

/-- No host write is allowed while busy, wherever it goes (70_reset_and_hazards.md R284, R285). -/
theorem hostWrite_of_busy (hb : s.status.busy = true) (v : Word) :
    hostWrite P a bytes v s = .fault (.protocol a) :=
  if_pos hb

/-- No host read but that of STATUS is allowed while busy (70_reset_and_hazards.md R284). -/
theorem hostRead_of_busy (hb : s.status.busy = true) (h : ¬ (a = statusAddr ∧ bytes = 4)) :
    hostRead P a bytes s = .fault (.protocol a) :=
  if_pos ⟨hb, h⟩

end busy

theorem isReset_reset : IsReset State.reset :=
  ⟨rfl, rfl, rfl, rfl, rfl, rfl, rfl, congrArg Except.ok (by decide), rfl,
    fun _ => ⟨rfl, rfl, rfl, rfl, rfl, rfl, rfl⟩⟩

/-- RST sets every register and cell as they are in the reset state; what it keeps is not the core's. -/
theorem isReset_rst_advance (s : State) : IsReset s.rst.advance := isReset_reset

theorem idle_rst_advance (s : State) : Idle s.rst.advance := ⟨rfl, rfl, rfl⟩

/-- Settles O44: the host moves while a command waits, and the protocol check comes before the address is looked at. -/
theorem busyAccessFaults : Obligations.BusyAccessFaults := by
  unfold Obligations.BusyAccessFaults
  rintro s w ⟨-, hb, hl⟩
  refine ⟨fun a bytes v hn => ?_, fun a bytes h hn => ?_⟩
  · exact (step_of_latency hl hn).trans (hostWrite_of_busy _ (s := s.tick) hb v)
  · exact (step_of_latency hl hn).trans (hostRead_of_busy _ (s := s.tick) hb h)

/-- Settles O56: RST is one step of the host, and it leaves an idle core, whose CMD takes the next word. -/
theorem resetInput : Obligations.ResetInput := by
  unfold Obligations.ResetInput
  refine ⟨isReset_reset, fun s hm hrst => ⟨s.tick.rst.advance, step_of_hostNext hm hrst, isReset_rst_advance _, ?_⟩⟩
  exact fun w hn => ⟨_, step_write (idle_rst_advance _) (r := .cmd) rfl hn, rfl⟩

/-- Settles O58: the invariant holds at reset under every configuration. -/
theorem resetSatisfiesInvariant : Obligations.ResetSatisfiesInvariant := by
  unfold Obligations.ResetSatisfiesInvariant
  exact inv_reset Config.params

end Sys2Proof.Machine
